-- ==== Sys2Proof/Word.lean ====
section
/-! DEFINITION. Word.lean: the widths of the hardware's values (spec/00_scope.md R5, R8). Every value is an
unsigned number of a stated width; there is no signed quantity anywhere. -/

namespace Sys2Proof

/-- A memory byte, a general register, an immediate `kk` (R5 BYTE, REG_BITS; 30_encoding.md R61). -/
abbrev Byte := BitVec 8

/-- An instruction word (R5 OPCODE_BITS; 30_encoding.md R60). -/
abbrev Opcode := BitVec 16

/-- A value of the program counter or of a stack entry (R5 PC_BITS, STACK_ENTRY_BITS; 10_state.md R12, R21). -/
abbrev Addr := BitVec 16

/-- A register index, the opcode fields `x` and `y` (30_encoding.md R61, R64). -/
abbrev RegIx := BitVec 4

/-- The 12-bit address operand `addr` (30_encoding.md R61, R64). -/
abbrev Target := BitVec 12

end Sys2Proof
end

