-- ==== Sys2Proof/Syntax.lean ====
section
/-! DEFINITION. Syntax.lean: the instruction set, one constructor per row of spec/opcode_table.json, in its order
(30_encoding.md R66). The set is closed (00_scope.md R1). -/

namespace Sys2Proof

/-- An instruction with its operands. `x` is the first register field, `y` the second, `kk` the 8-bit immediate,
`addr` the 12-bit address (30_encoding.md R61, R64): every value of every field is legal. -/
inductive Instr where
  /-- HALT `0x0000` (41_system.md R100). -/
  | halt
  /-- CLEAR `0x00E0` (41_system.md R101). -/
  | clear
  /-- RETURN `0x00EE` (42_control_flow.md R110). -/
  | ret
  /-- JUMP `0x1nnn` (42_control_flow.md R111). -/
  | jump (addr : Target)
  /-- CALL `0x2nnn` (42_control_flow.md R112). -/
  | call (addr : Target)
  /-- SKIP_EQ_IMM `0x3xkk` (43_skip.md R120). -/
  | skipEqImm (x : RegIx) (kk : Byte)
  /-- SKIP_NEQ_IMM `0x4xkk` (43_skip.md R121). -/
  | skipNeqImm (x : RegIx) (kk : Byte)
  /-- SKIP_EQ_REG `0x5xy0` (43_skip.md R122). -/
  | skipEqReg (x : RegIx) (y : RegIx)
  /-- LOAD_IMM `0x6xkk` (44_alu.md R130). -/
  | loadImm (x : RegIx) (kk : Byte)
  /-- ADD_IMM `0x7xkk` (44_alu.md R131). -/
  | addImm (x : RegIx) (kk : Byte)
  /-- LOAD_REG `0x8xy0` (44_alu.md R132). -/
  | loadReg (x : RegIx) (y : RegIx)
  /-- OR `0x8xy1` (44_alu.md R133). -/
  | orReg (x : RegIx) (y : RegIx)
  /-- AND `0x8xy2` (44_alu.md R134). -/
  | andReg (x : RegIx) (y : RegIx)
  /-- XOR `0x8xy3` (44_alu.md R135). -/
  | xorReg (x : RegIx) (y : RegIx)
  /-- ADD_REG `0x8xy4` (44_alu.md R136). -/
  | addReg (x : RegIx) (y : RegIx)
  deriving DecidableEq, Repr

end Sys2Proof
end

