-- ==== Sys2Proof/WellFormed.lean ====
section
/-! DEFINITION. WellFormed.lean: which instruction spellings are instructions. The fields of `Instr` have exactly the
widths of 30_encoding.md R61, so every `Instr` is well formed by its type; the checks are made here, once, on the untyped
spelling of an instruction (its name and its operands as numbers, 30_encoding.md R72, R74). -/

namespace Sys2Proof

/-- What a word can be: the 15 instruction names of 30_encoding.md R66, or UNSUPPORTED (R65; 10_state.md R33). -/
inductive Kind where
  | halt | clear | ret | jump | call | skipEqImm | skipNeqImm | skipEqReg | loadImm | addImm
  | loadReg | orReg | andReg | xorReg | addReg | unsupported
  deriving DecidableEq, Repr

/-- The four formats (30_encoding.md R63). -/
inductive Format where
  /-- One exact word, no operand. -/
  | z
  /-- `addr`. -/
  | a
  /-- `x`, `kk`. -/
  | xk
  /-- `x`, `y`. -/
  | xy
  deriving DecidableEq, Repr

/-- The format of each instruction (30_encoding.md R63); an unsupported word has none. -/
def Kind.format : Kind → Option Format
  | .halt | .clear | .ret => some .z
  | .jump | .call => some .a
  | .skipEqImm | .skipNeqImm | .loadImm | .addImm => some .xk
  | .skipEqReg | .loadReg | .orReg | .andReg | .xorReg | .addReg => some .xy
  | .unsupported => none

/-- The name of an instruction (30_encoding.md R66). -/
def Instr.kind : Instr → Kind
  | .halt => .halt
  | .clear => .clear
  | .ret => .ret
  | .jump _ => .jump
  | .call _ => .call
  | .skipEqImm _ _ => .skipEqImm
  | .skipNeqImm _ _ => .skipNeqImm
  | .skipEqReg _ _ => .skipEqReg
  | .loadImm _ _ => .loadImm
  | .addImm _ _ => .addImm
  | .loadReg _ _ => .loadReg
  | .orReg _ _ => .orReg
  | .andReg _ _ => .andReg
  | .xorReg _ _ => .xorReg
  | .addReg _ _ => .addReg

/-- An instruction as it is spelled: its name and its operands as plain numbers, in the order of 30_encoding.md R72. -/
structure Spelling where
  kind     : Kind
  operands : List Nat
  deriving DecidableEq, Repr

/-- The operands have the number and the ranges of the format: `x`, `y` in 0 to 15, `kk` in 0 to 255, `addr` in 0 to
4095 (30_encoding.md R63, R74). -/
def Format.operandsFit : Format → List Nat → Bool
  | .z, [] => true
  | .a, [addr] => decide (addr < 4096)
  | .xk, [x, kk] => decide (x < 16) && decide (kk < 256)
  | .xy, [x, y] => decide (x < 16) && decide (y < 16)
  | _, _ => false

/-- The check: the name is an instruction's and the operands fit its format. -/
def Spelling.wellFormed (p : Spelling) : Bool :=
  match p.kind.format with
  | some f => f.operandsFit p.operands
  | none => false

/-- The spelling of an instruction. -/
def Instr.spelling (i : Instr) : Spelling :=
  { kind := i.kind
    operands :=
      match i with
      | .halt | .clear | .ret => []
      | .jump addr | .call addr => [addr.toNat]
      | .skipEqImm x kk | .skipNeqImm x kk | .loadImm x kk | .addImm x kk => [x.toNat, kk.toNat]
      | .skipEqReg x y | .loadReg x y | .orReg x y | .andReg x y | .xorReg x y | .addReg x y =>
          [x.toNat, y.toNat] }

/-- The check of an instruction is the check of its spelling. -/
def Instr.wellFormed (i : Instr) : Bool := i.spelling.wellFormed

end Sys2Proof
end

