-- ==== Sys2Proof/Decode.lean ====
section
/-! DEFINITION. Decode.lean: the instruction_decoder (spec/30_encoding.md; 10_state.md R33) and, after it, the encoder and the printer.
The decoder is total and depends on the word alone (30_encoding.md R65, R70); a word outside the 15 rows is rejected
by name with the whole word (R67, R71). The patterns are exact (D12, C2; log 12). -/

namespace Sys2Proof

/-! ## Fields (30_encoding.md R61, R62) -/

/-- `c = op[15:12]`, the class. -/
def fieldC (op : Opcode) : BitVec 4 := op.extractLsb' 12 4

/-- `x = op[11:8]`. -/
def fieldX (op : Opcode) : RegIx := op.extractLsb' 8 4

/-- `y = op[7:4]`. -/
def fieldY (op : Opcode) : RegIx := op.extractLsb' 4 4

/-- `d = op[3:0]`, the sub-opcode. -/
def fieldD (op : Opcode) : BitVec 4 := op.extractLsb' 0 4

/-- `kk = op[7:0]`. -/
def fieldKK (op : Opcode) : Byte := op.extractLsb' 0 8

/-- `addr = op[11:0]`. -/
def fieldAddr (op : Opcode) : Target := op.extractLsb' 0 12

/-! ## The opcode table (30_encoding.md R66) -/

/-- One row: an opcode belongs to it iff `op & mask = match` (R65). -/
structure Row where
  kind  : Kind
  mask  : Opcode
  value : Opcode
  deriving DecidableEq, Repr

/-- The 15 rows, in the order of R66. -/
def opcodeTable : List Row :=
  [ ⟨.halt,       0xFFFF#16, 0x0000#16⟩
  , ⟨.clear,      0xFFFF#16, 0x00E0#16⟩
  , ⟨.ret,        0xFFFF#16, 0x00EE#16⟩
  , ⟨.jump,       0xF000#16, 0x1000#16⟩
  , ⟨.call,       0xF000#16, 0x2000#16⟩
  , ⟨.skipEqImm,  0xF000#16, 0x3000#16⟩
  , ⟨.skipNeqImm, 0xF000#16, 0x4000#16⟩
  , ⟨.skipEqReg,  0xF00F#16, 0x5000#16⟩ ] ++
  [ ⟨.loadImm,    0xF000#16, 0x6000#16⟩
  , ⟨.addImm,     0xF000#16, 0x7000#16⟩
  , ⟨.loadReg,    0xF00F#16, 0x8000#16⟩
  , ⟨.orReg,      0xF00F#16, 0x8001#16⟩
  , ⟨.andReg,     0xF00F#16, 0x8002#16⟩
  , ⟨.xorReg,     0xF00F#16, 0x8003#16⟩
  , ⟨.addReg,     0xF00F#16, 0x8004#16⟩ ]

/-- `op` matches the row. -/
def Row.accepts (r : Row) (op : Opcode) : Bool := op &&& r.mask == r.value

/-! ## Dispatch (30_encoding.md R65) -/

/-- `kind(op)`, the decision tree of R65. -/
def kindOf (op : Opcode) : Kind :=
  match (fieldC op).toNat with
  | 0x0 =>
      if op = 0x0000#16 then .halt
      else if op = 0x00E0#16 then .clear
      else if op = 0x00EE#16 then .ret
      else .unsupported
  | 0x1 => .jump
  | 0x2 => .call
  | 0x3 => .skipEqImm
  | 0x4 => .skipNeqImm
  | 0x5 => if fieldD op = 0x0#4 then .skipEqReg else .unsupported
  | 0x6 => .loadImm
  | 0x7 => .addImm
  | 0x8 =>
      match (fieldD op).toNat with
      | 0x0 => .loadReg
      | 0x1 => .orReg
      | 0x2 => .andReg
      | 0x3 => .xorReg
      | 0x4 => .addReg
      | _ => .unsupported
  | _ => .unsupported

/-- Why the decoder gives no instruction. -/
inductive DecodeReject where
  /-- The word is none of the 15 rows: UNSUPPORTED with the whole word (30_encoding.md R67, R71). -/
  | unsupportedOpcode (op : Opcode)
  /-- Fewer than two bytes were given: an instruction is exactly two (R60). -/
  | fewerThanTwoBytes
  deriving DecidableEq, Repr

/-- The instruction of a word: `kind` and the fields its format uses (30_encoding.md R63, R71). -/
def decodeWord (op : Opcode) : Except DecodeReject Instr :=
  match kindOf op with
  | .halt => .ok .halt
  | .clear => .ok .clear
  | .ret => .ok .ret
  | .jump => .ok (.jump (fieldAddr op))
  | .call => .ok (.call (fieldAddr op))
  | .skipEqImm => .ok (.skipEqImm (fieldX op) (fieldKK op))
  | .skipNeqImm => .ok (.skipNeqImm (fieldX op) (fieldKK op))
  | .skipEqReg => .ok (.skipEqReg (fieldX op) (fieldY op))
  | .loadImm => .ok (.loadImm (fieldX op) (fieldKK op))
  | .addImm => .ok (.addImm (fieldX op) (fieldKK op))
  | .loadReg => .ok (.loadReg (fieldX op) (fieldY op))
  | .orReg => .ok (.orReg (fieldX op) (fieldY op))
  | .andReg => .ok (.andReg (fieldX op) (fieldY op))
  | .xorReg => .ok (.xorReg (fieldX op) (fieldY op))
  | .addReg => .ok (.addReg (fieldX op) (fieldY op))
  | .unsupported => .error (.unsupportedOpcode op)

/-- Big-endian packing of the two bytes of an instruction, `byte1 << 8 | byte2` (20_memory.md R42;
40_fetch_and_step.md R83). -/
def packWord (byte1 byte2 : Byte) : Opcode := byte1 ++ byte2

/-- The byte at the lower address, opcode bits 15 to 8. -/
def highByte (op : Opcode) : Byte := op.extractLsb' 8 8

/-- The byte at the higher address, opcode bits 7 to 0. -/
def lowByte (op : Opcode) : Byte := op.extractLsb' 0 8

/-- Decodes the instruction at the front of a list of bytes and gives the rest of the list. -/
def decodeBytes : List Byte → Except DecodeReject (Instr × List Byte)
  | byte1 :: byte2 :: rest =>
      match decodeWord (packWord byte1 byte2) with
      | .ok i => .ok (i, rest)
      | .error r => .error r
  | _ => .error .fewerThanTwoBytes

/-! ## The encoder (30_encoding.md R74) -/

/-- An opcode of format `A`: class, `addr`. -/
def formatA (c : BitVec 4) (addr : Target) : Opcode := c ++ addr

/-- An opcode of format `XK`: class, `x`, `kk`. -/
def formatXK (c : BitVec 4) (x : RegIx) (kk : Byte) : Opcode := (c ++ x) ++ kk

/-- An opcode of format `XY`: class, `x`, `y`, `d`. -/
def formatXY (c : BitVec 4) (x y : RegIx) (d : BitVec 4) : Opcode := (c ++ x) ++ (y ++ d)

/-- The word of an instruction (R74). -/
def encode : Instr → Opcode
  | .halt => 0x0000#16
  | .clear => 0x00E0#16
  | .ret => 0x00EE#16
  | .jump addr => formatA 0x1#4 addr
  | .call addr => formatA 0x2#4 addr
  | .skipEqImm x kk => formatXK 0x3#4 x kk
  | .skipNeqImm x kk => formatXK 0x4#4 x kk
  | .skipEqReg x y => formatXY 0x5#4 x y 0x0#4
  | .loadImm x kk => formatXK 0x6#4 x kk
  | .addImm x kk => formatXK 0x7#4 x kk
  | .loadReg x y => formatXY 0x8#4 x y 0x0#4
  | .orReg x y => formatXY 0x8#4 x y 0x1#4
  | .andReg x y => formatXY 0x8#4 x y 0x2#4
  | .xorReg x y => formatXY 0x8#4 x y 0x3#4
  | .addReg x y => formatXY 0x8#4 x y 0x4#4

/-- The two bytes of an instruction as they lie in memory: "The opcode is stored with its high byte at the lower
address" (R74). -/
def encodeBytes (i : Instr) : List Byte := [highByte (encode i), lowByte (encode i)]

/-- The instruction a spelling stands for, if it is well formed (WellFormed.lean). -/
def Spelling.toInstr (p : Spelling) : Option Instr :=
  if p.wellFormed then
    match p.kind, p.operands with
    | .halt, _ => some .halt
    | .clear, _ => some .clear
    | .ret, _ => some .ret
    | .jump, [addr] => some (.jump (BitVec.ofNat 12 addr))
    | .call, [addr] => some (.call (BitVec.ofNat 12 addr))
    | .skipEqImm, [x, kk] => some (.skipEqImm (BitVec.ofNat 4 x) (BitVec.ofNat 8 kk))
    | .skipNeqImm, [x, kk] => some (.skipNeqImm (BitVec.ofNat 4 x) (BitVec.ofNat 8 kk))
    | .skipEqReg, [x, y] => some (.skipEqReg (BitVec.ofNat 4 x) (BitVec.ofNat 4 y))
    | .loadImm, [x, kk] => some (.loadImm (BitVec.ofNat 4 x) (BitVec.ofNat 8 kk))
    | .addImm, [x, kk] => some (.addImm (BitVec.ofNat 4 x) (BitVec.ofNat 8 kk))
    | .loadReg, [x, y] => some (.loadReg (BitVec.ofNat 4 x) (BitVec.ofNat 4 y))
    | .orReg, [x, y] => some (.orReg (BitVec.ofNat 4 x) (BitVec.ofNat 4 y))
    | .andReg, [x, y] => some (.andReg (BitVec.ofNat 4 x) (BitVec.ofNat 4 y))
    | .xorReg, [x, y] => some (.xorReg (BitVec.ofNat 4 x) (BitVec.ofNat 4 y))
    | .addReg, [x, y] => some (.addReg (BitVec.ofNat 4 x) (BitVec.ofNat 4 y))
    | _, _ => none
  else none

/-! ## The host's view of the decoder -/

/-- The instruction the decoder reads from an opcode-table row's word: `w` cut to `nbits`, laid out big-endian, given
to `decodeBytes`. -/
def decodeTableWord (nbits w : Nat) : Option Instr :=
  let op : Opcode := BitVec.ofNat 16 (w % 2 ^ nbits)
  match decodeBytes [highByte op, lowByte op] with
  | .ok (i, _) => some i
  | .error _ => none

/-! ## The spelling of examples (30_encoding.md R72; D15, log 19) -/

/-- One hex digit. -/
def hexDigit (n : BitVec 4) : Char := "0123456789ABCDEF".toList.getD n.toNat '?'

/-- `Vx`. -/
def showReg (x : RegIx) : String := "V" ++ String.ofList [hexDigit x]

/-- `0xkk`. -/
def showImm (kk : Byte) : String :=
  "0x" ++ String.ofList [hexDigit (kk.extractLsb' 4 4), hexDigit (kk.extractLsb' 0 4)]

/-- `0xnnn`. -/
def showTarget (a : Target) : String :=
  "0x" ++ String.ofList
    [hexDigit (a.extractLsb' 8 4), hexDigit (a.extractLsb' 4 4), hexDigit (a.extractLsb' 0 4)]

/-- The name of a kind as the opcode table spells it (R66). -/
def Kind.name : Kind → String
  | .halt => "HALT"
  | .clear => "CLEAR"
  | .ret => "RETURN"
  | .jump => "JUMP"
  | .call => "CALL"
  | .skipEqImm => "SKIP_EQ_IMM"
  | .skipNeqImm => "SKIP_NEQ_IMM"
  | .skipEqReg => "SKIP_EQ_REG"
  | .loadImm => "LOAD_IMM"
  | .addImm => "ADD_IMM"
  | .loadReg => "LOAD_REG"
  | .orReg => "OR"
  | .andReg => "AND"
  | .xorReg => "XOR"
  | .addReg => "ADD_REG"
  | .unsupported => "UNSUPPORTED"

/-- An instruction in the spelling of R72. -/
def Instr.show (i : Instr) : String :=
  match i with
  | .halt | .clear | .ret => i.kind.name
  | .jump addr | .call addr => i.kind.name ++ " " ++ showTarget addr
  | .skipEqImm x kk | .skipNeqImm x kk | .loadImm x kk | .addImm x kk =>
      i.kind.name ++ " " ++ showReg x ++ ", " ++ showImm kk
  | .skipEqReg x y | .loadReg x y | .orReg x y | .andReg x y | .xorReg x y | .addReg x y =>
      i.kind.name ++ " " ++ showReg x ++ ", " ++ showReg y

end Sys2Proof
end

