-- ==== Sys2Proof/Config.lean ====
section
/-! DEFINITION. Config.lean: the implementation parameters (spec/00_scope.md R5). None varies between instances.
The open parameters of the spec (MEM_IMAGE, V_INIT, ENTRY) are no constants: State holds them and the host port sets
them (Machine/HostPort.lean). The hardware has no free value (93_implementation_defined.md section 1), so no constant here is opaque. -/

namespace Sys2Proof.Config

/-- MEM_SIZE: bytes of memory, addresses 0x000 to 0xFFF (R5; 10_state.md R11). -/
abbrev memSize : Nat := 4096

/-- The last address at which a 2-byte fetch lies inside memory (20_memory.md R44; 40_fetch_and_step.md R82). -/
abbrev lastFetch : Nat := 0x0FFE

/-- STACK_DEPTH: entries of the return-address stack (R5; 10_state.md R21). -/
abbrev stackDepth : Nat := 16

/-- FLAG_REG: the register that doubles as the carry flag (R5; 10_state.md R19). -/
abbrev flagReg : RegIx := 0xF#4

/-- PC_STEP: what the fetch and a taken skip add to `pc` (R5; 40_fetch_and_step.md R84; 43_skip.md R123). -/
abbrev pcStep : Addr := 2#16

/-- ENTRY's default: the value of `pc` after reset (R5; 10_state.md R29). -/
abbrev entry : Addr := 0x0000#16

/-- What a byte of memory that nothing has written reads as. DESIGN CHOICE 0x00, unsafe (log 1): the spec leaves
MEM_IMAGE to the host, 70_reset_and_hazards.md R183. -/
abbrev unlistedByte : Byte := 0x00#8

end Sys2Proof.Config
end

