-- ==== Sys2Proof/Machine/State.lean ====
section
/-! DEFINITION. State.lean: everything the spec gives the machine (spec/10_state.md R10, R27), the reasons a step can
stop, and the state after reset (R29; 70_reset_and_hazards.md R180). The inventory lists each field with its rule. -/

namespace Sys2Proof.Machine

/-- Memory as (address, byte) pairs in one canonical form (Memory.wf in Ops.lean): addresses strictly rising and below
4096, no entry equal to `Config.unlistedByte` (10_state.md R11; log 1). -/
abbrev Memory := List Host.Cell

/-- The run status, `status[1:0]` (10_state.md R24; the codes are Status.code in Operands.lean). -/
inductive Status where
  /-- Reset has happened, the run has not started. -/
  | idle
  /-- The core takes steps. -/
  | running
  /-- The run ended at HALT. -/
  | halted
  /-- The run ended at a fatal condition. -/
  | faulted
  deriving DecidableEq, Repr

/-- The legal values of `fault_cause[2:0]` (10_state.md R25; codes 5 to 7 are never produced, log 7). -/
inductive FaultCause where
  | none
  | unsupportedOpcode
  | stackOverflow
  | stackUnderflow
  | memoryOutOfBounds
  deriving DecidableEq, Repr

/-- A fatal condition of the hardware with its offending value (60_exceptions.md R150). Raising one is a NEXT state
with status Faulted (R157), not a stop of the model. -/
inductive Fatal where
  /-- A fetched word outside the supported set (R151). -/
  | unsupportedOpcode (op : Opcode)
  /-- CALL when `sp = 16` (R152). -/
  | stackOverflow
  /-- RETURN when `sp = 0` (R153). -/
  | stackUnderflow
  /-- A fetch outside memory, with the lowest out-of-range byte address (R154). -/
  | memoryOutOfBounds (a : Addr)
  deriving DecidableEq, Repr

/-- The machine state: the five members the source names (10_state.md R10) and the run status and the fault record
(R24, R25). -/
structure State where
  /-- `memory` (R11). -/
  mem        : Memory
  /-- `pc` (R12). -/
  pc         : Addr
  /-- `V[0]` to `V[15]` (R17); `V[15]` is also the flag register (R19). -/
  regs       : Vector Byte 16
  /-- `stack[0]` to `stack[15]` (R21). -/
  stack      : Vector Addr 16
  /-- `sp`, 0 to 16 (R22; log 6). -/
  sp         : Fin 17
  /-- `status` (R24). -/
  status     : Status
  /-- `fault_cause` (R25). -/
  faultCause : FaultCause
  /-- `fault_value` (R25). -/
  faultValue : Addr
  deriving DecidableEq, Repr

/-- Why a step of the model stops. -/
inductive Fault where
  /-- Raised by `step` when `status` is not Running: no step exists (40_fetch_and_step.md R80; 10_state.md R24; D23).
  Safe: the hardware does nothing there either (log 4). -/
  | noStep (status : Status)
  deriving DecidableEq, Repr

/-- Why the model gives an instruction no meaning. -/
inductive Refusal where
  /-- Raised by an arm of `exec` whose instruction has no meaning yet. Safe. No arm raises it in this model. -/
  | notModelled (mnemonic : String)
  deriving DecidableEq, Repr

/-- The outcome of an instruction or of a step. -/
abbrev Result := Host.Outcome State Fault Refusal

/-- The state right after reset (10_state.md R29; 70_reset_and_hazards.md R180; log 2, log 3), with nothing listed in memory. -/
def State.reset : State where
  mem        := []
  pc         := Config.entry
  regs       := Vector.replicate 16 0x00#8
  stack      := Vector.replicate 16 0x0000#16
  sp         := 0
  status     := .idle
  faultCause := .none
  faultValue := 0x0000#16

end Sys2Proof.Machine
end

