-- ==== Sys2Proof/Machine/Operands.lean ====
section
/-! DEFINITION. Operands.lean: the register_file's ports and the operand forms (spec/30_encoding.md R64;
10_state.md R17, R18, R34), and the bit codes of the status and cause registers (R24, R25, R26). -/

namespace Sys2Proof.Machine

/-- Read of `V[x]`: every index is legal and no register is hardwired (10_state.md R17). -/
def State.readReg (s : State) (x : RegIx) : Byte := s.regs[x.toNat]'x.isLt

/-- `V[x] <- v` (10_state.md R17). -/
def State.writeReg (s : State) (x : RegIx) (v : Byte) : State :=
  { s with regs := s.regs.set x.toNat v x.isLt }

/-- `zext_16(addr)`: the address operand as a value of `pc`, absolute, unscaled (30_encoding.md R64). -/
def targetAddr (addr : Target) : Addr := addr.setWidth 16

/-- `status[1:0]` (10_state.md R24). -/
def Status.code : Status → BitVec 2
  | .idle => 0#2
  | .running => 1#2
  | .halted => 2#2
  | .faulted => 3#2

/-- `fault_cause[2:0]` (10_state.md R25; 60_exceptions.md R150). -/
def FaultCause.code : FaultCause → BitVec 3
  | .none => 0#3
  | .unsupportedOpcode => 1#3
  | .stackOverflow => 2#3
  | .stackUnderflow => 3#3
  | .memoryOutOfBounds => 4#3

/-- `sp[4:0]` (10_state.md R26). -/
def spBits (sp : Fin 17) : BitVec 5 := BitVec.ofNat 5 sp.val

end Sys2Proof.Machine
end

