-- ==== Sys2Proof/Machine/Flags.lean ====
section
/-! DEFINITION. Flags.lean: the one flag of the hardware, the carry of ADD_REG in `V[15]` (spec/10_state.md R19, R20;
44_alu.md R136, R137, R139). No other instruction computes or writes a flag (log 13). -/

namespace Sys2Proof.Machine

/-- The "9-bit-wide addition", 0 to 510 (44_alu.md R136, R137). -/
def sum9 (a b : Byte) : BitVec 9 := a.setWidth 9 + b.setWidth 9

/-- `s mod 256`, the bits `s[7:0]` (44_alu.md R136). -/
def sumLow (a b : Byte) : Byte := (sum9 a b).extractLsb' 0 8

/-- Bit 8 of the 9-bit sum (44_alu.md R137; 10_state.md R35). -/
def sumCarry (a b : Byte) : Bool := (sum9 a b).getLsbD 8

/-- What the flag register is written with: all 8 bits, 0x01 or 0x00 (10_state.md R19). -/
def flagByte (bit : Bool) : Byte := if bit then 0x01#8 else 0x00#8

/-- `V[15] <- zext_8(bit)`, the flag port (10_state.md R34). -/
def State.writeFlag (s : State) (bit : Bool) : State := s.writeReg Config.flagReg (flagByte bit)

end Sys2Proof.Machine
end

