-- ==== Sys2Proof/Machine/Ops.lean ====
section
/-! DEFINITION. Ops.lean: the shared operations over memory, `pc`, the stack and the fault record
(spec/20_memory.md, 42_control_flow.md R114, 43_skip.md R123, 60_exceptions.md R157). -/

namespace Sys2Proof.Machine

/-! ## Memory (10_state.md R11; 20_memory.md R43, R44, R55) -/

/-- The byte at `a`; an address that is not listed reads as `Config.unlistedByte` (log 1). -/
def Memory.readByte : Memory → Nat → Byte
  | [], _ => Config.unlistedByte
  | (b, w) :: rest, a => if a = b then w else Memory.readByte rest a

/-- `memory[a] <- v`, in canonical form: writing the unlisted byte takes the entry out. -/
def Memory.writeByte : Memory → Nat → Byte → Memory
  | [], a, v => if v = Config.unlistedByte then [] else [(a, v)]
  | (b, w) :: rest, a, v =>
      if a = b then (if v = Config.unlistedByte then rest else (a, v) :: rest)
      else if a < b then (if v = Config.unlistedByte then (b, w) :: rest else (a, v) :: (b, w) :: rest)
      else (b, w) :: Memory.writeByte rest a v

/-- Every address of the list is at least `lo` and below the memory's size, the addresses rise strictly, and no entry
holds the unlisted byte. -/
def Memory.wfFrom : Nat → Memory → Bool
  | _, [] => true
  | lo, (b, w) :: rest =>
      decide (lo ≤ b) && decide (b < Config.memSize) && !(w == Config.unlistedByte) && Memory.wfFrom (b + 1) rest

/-- The canonical form of memory (log 1): equal contents are equal lists. -/
def Memory.wf (m : Memory) : Bool := Memory.wfFrom 0 m

/-- `MemRead(a, 1)`: never reduced modulo 4096 (20_memory.md R43). -/
def memRead1 (m : Memory) (a : Addr) : Except Fatal Byte :=
  if 0x0FFF < a.toNat then .error (.memoryOutOfBounds a)
  else .ok (m.readByte a.toNat)

/-- `MemRead(a, 2)`: big-endian (20_memory.md R42); both bytes are checked before either is used, and the lowest out-of-range address is reported
(20_memory.md R44; D4, log 9). -/
def memRead2 (m : Memory) (a : Addr) : Except Fatal Opcode :=
  if 0x0FFF < a.toNat then .error (.memoryOutOfBounds a)
  else if a.toNat = 0x0FFF then .error (.memoryOutOfBounds 0x1000#16)
  else .ok (packWord (m.readByte a.toNat) (m.readByte (a.toNat + 1)))

/-! ## Taking a fatal condition (60_exceptions.md R150, R157) -/

/-- The class of a fatal condition (60_exceptions.md R150). -/
def Fatal.cause : Fatal → FaultCause
  | .unsupportedOpcode _ => .unsupportedOpcode
  | .stackOverflow => .stackOverflow
  | .stackUnderflow => .stackUnderflow
  | .memoryOutOfBounds _ => .memoryOutOfBounds

/-- Its offending value; the stack faults have none and record 0x0000 (60_exceptions.md R150; D8, log 9). -/
def Fatal.value : Fatal → Addr
  | .unsupportedOpcode op => op
  | .stackOverflow => 0x0000#16
  | .stackUnderflow => 0x0000#16
  | .memoryOutOfBounds a => a

/-- `raise F(info)`: the status and the fault record are written and nothing else; there is no handler and nothing is
saved (60_exceptions.md R157), and no return from it exists (R158). -/
def raise (f : Fatal) (s : State) : State :=
  { s with status := .faulted, faultCause := f.cause, faultValue := f.value }

/-- What a step or an instruction answers when an operation of it raises: the state `s` at that moment with the fault
taken. -/
def orRaise (r : Except Fatal State) (s : State) : Result :=
  match r with
  | .ok t => .next t
  | .error f => .next (raise f s)

/-! ## The program counter (10_state.md R13, R16) -/

/-- `pc <- t`. -/
def State.setPc (s : State) (t : Addr) : State := { s with pc := t }

/-- `pc <- pc + 2`: the fetch's advance and the move of a taken skip (40_fetch_and_step.md R84; 43_skip.md R123). From
a `pc` that a fetch accepts the sum is exact (10_state.md R15; log 8). -/
def State.bumpPc (s : State) : State := s.setPc (s.pc + Config.pcStep)

/-- A conditional skip: the second `pc <- pc + 2` when the condition holds; the bytes passed over are not read
(43_skip.md R123). -/
def skipIf (cond : Bool) (s : State) : State := if cond then s.bumpPc else s

/-! ## The stack controller (42_control_flow.md R114) -/

/-- `push(v)`: the test comes first (R114; C7). -/
def push (v : Addr) (s : State) : Except Fatal State :=
  if h : s.sp.val < 16 then
    .ok { s with stack := s.stack.set s.sp.val v h, sp := ⟨s.sp.val + 1, by omega⟩ }
  else .error .stackOverflow

/-- `pop()`: the test comes first, and the popped entry stays in place (R114; 10_state.md R23, D10, log 14). -/
def pop (s : State) : Except Fatal (Addr × State) :=
  if h : 0 < s.sp.val then
    .ok (s.stack[s.sp.val - 1]'(by omega), { s with sp := ⟨s.sp.val - 1, by omega⟩ })
  else .error .stackUnderflow

/-! ## Ending the run (10_state.md R24) -/

/-- `status <- Halted` (41_system.md R100). -/
def halt (s : State) : State := { s with status := .halted }

end Sys2Proof.Machine
end

