-- ==== Sys2Proof/Machine/Alu.lean ====
section
/-! DEFINITION. Alu.lean: the register, logic and arithmetic instructions (spec/44_alu.md). Operands are read before any
write (R136; 10_state.md R18, log 24); only ADD_REG writes a flag (R139). -/

namespace Sys2Proof.Machine

/-- LOAD_IMM: `V[x] <- kk` (R130). -/
def execLoadImm (x : RegIx) (kk : Byte) (s : State) : Result := .next (s.writeReg x kk)

/-- ADD_IMM: `V[x] <- (V[x] + kk) mod 256`, no flag (R131; C9). -/
def execAddImm (x : RegIx) (kk : Byte) (s : State) : Result :=
  .next (s.writeReg x (sumLow (s.readReg x) kk))

/-- LOAD_REG: `V[x] <- V[y]` (R132). -/
def execLoadReg (x y : RegIx) (s : State) : Result := .next (s.writeReg x (s.readReg y))

/-- OR: `V[x] <- V[x] | V[y]` (R133). -/
def execOrReg (x y : RegIx) (s : State) : Result :=
  .next (s.writeReg x (s.readReg x ||| s.readReg y))

/-- AND: `V[x] <- V[x] & V[y]` (R134). -/
def execAndReg (x y : RegIx) (s : State) : Result :=
  .next (s.writeReg x (s.readReg x &&& s.readReg y))

/-- XOR: `V[x] <- V[x] ^ V[y]` (R135). -/
def execXorReg (x y : RegIx) (s : State) : Result :=
  .next (s.writeReg x (s.readReg x ^^^ s.readReg y))

/-- ADD_REG: the low 8 bits of the 9-bit sum into `V[x]`, then the carry into `V[15]`; the flag write is last, so with
`x = 0xF` the carry is what stays (R136, R138; D11, log 11). -/
def execAddReg (x y : RegIx) (s : State) : Result :=
  .next ((s.writeReg x (sumLow (s.readReg x) (s.readReg y))).writeFlag
    (sumCarry (s.readReg x) (s.readReg y)))

end Sys2Proof.Machine
end

