-- ==== Sys2Proof/Machine/ControlFlow.lean ====
section
/-! DEFINITION. ControlFlow.lean: RETURN, JUMP, CALL (spec/42_control_flow.md). Each meaning is the execute part of a
step: `pc` already holds the address of the instruction plus 2. -/

namespace Sys2Proof.Machine

/-- RETURN: pop into `pc`, all 16 bits unchecked; StackUnderflow on an empty stack (R110, R113). -/
def execRet (s : State) : Result :=
  orRaise ((pop s).map fun (a, t) => t.setPc a) s

/-- JUMP: `pc <- zext_16(addr)`, the target unchecked (R111, R116). -/
def execJump (addr : Target) (s : State) : Result := .next (s.setPc (targetAddr addr))

/-- CALL: push the advanced `pc`, then `pc <- zext_16(addr)`; StackOverflow on a full stack, the target not loaded
(R112; C7). -/
def execCall (addr : Target) (s : State) : Result :=
  orRaise ((push s.pc s).map fun t => t.setPc (targetAddr addr)) s

end Sys2Proof.Machine
end

