-- ==== Sys2Proof/Machine/Skip.lean ====
section
/-! DEFINITION. Skip.lean: the three conditional skips (spec/43_skip.md). Each compares unsigned 8-bit values for equality
and writes nothing but `pc` (R123). -/

namespace Sys2Proof.Machine

/-- SKIP_EQ_IMM: skip if `V[x] == kk` (R120). -/
def execSkipEqImm (x : RegIx) (kk : Byte) (s : State) : Result :=
  .next (skipIf (s.readReg x == kk) s)

/-- SKIP_NEQ_IMM: skip if `V[x] != kk` (R121). -/
def execSkipNeqImm (x : RegIx) (kk : Byte) (s : State) : Result :=
  .next (skipIf (s.readReg x != kk) s)

/-- SKIP_EQ_REG: skip if `V[x] == V[y]` (R122). -/
def execSkipEqReg (x y : RegIx) (s : State) : Result :=
  .next (skipIf (s.readReg x == s.readReg y) s)

end Sys2Proof.Machine
end

