-- ==== Sys2Proof/Machine/System.lean ====
section
/-! DEFINITION. System.lean: HALT and CLEAR (spec/41_system.md). Each meaning is the execute part of a step: `pc` already
holds the address of the instruction plus 2. -/

namespace Sys2Proof.Machine

/-- HALT, `status <- Halted` (R100): the advance the fetch made stays (C3). -/
def execHalt (s : State) : Result := .next (halt s)

/-- CLEAR, "no-op in this core" (R101). -/
def execClear (s : State) : Result := .next s

end Sys2Proof.Machine
end

