-- ==== Sys2Proof/Machine/Fetch.lean ====
section
/-! DEFINITION. Fetch.lean: the fetch_unit's read (spec/40_fetch_and_step.md R81 to R83, R90) and where the bytes of an
instruction lie in memory. The fetch_unit holds nothing across steps. -/

namespace Sys2Proof.Machine

/-- The fetch: `MemRead(pc, 2)` at all 16 bits of `pc`, whatever its parity (R81, R82; D3, log 10). -/
def fetch (s : State) : Except Fatal Opcode := memRead2 s.mem s.pc

/-- Stores a word where the fetch at `a` reads it: the high byte at `a`, the low byte at `a + 1` (20_memory.md R42). -/
def Memory.writeWord (m : Memory) (a : Nat) (op : Opcode) : Memory :=
  (m.writeByte a (highByte op)).writeByte (a + 1) (lowByte op)

/-- The address the next fetch is made from once a word has been placed: `pc` where a fetch can be made, else 0x0000
(log 20). -/
def fetchableAddr (pc : Addr) : Addr := if pc.toNat ≤ Config.lastFetch then pc else Config.entry

end Sys2Proof.Machine
end

