-- ==== Sys2Proof/Machine/Step.lean ====
section
/-! DEFINITION. Step.lean: one step of the core (spec/40_fetch_and_step.md R80): fetch, advance, decode, execute. -/

namespace Sys2Proof.Machine

/-- Decode and execute a fetched word in the advanced state: a word the decoder rejects raises UnsupportedOpcode with
the whole word (R86; 60_exceptions.md R151). -/
def dispatch (op : Opcode) (s : State) : Result :=
  match decodeWord op with
  | .ok i => exec i s
  | .error _ => .next (raise (.unsupportedOpcode op) s)

/-- One step. It exists iff `status = Running` (R80; D23, log 4). A fetch outside memory raises MemoryOutOfBounds with
no advance (R82); otherwise `pc` is advanced before dispatch, whatever the word is (R84). -/
def step (s : State) : Host.Outcome State Fault Refusal :=
  match s.status with
  | .running =>
      match fetch s with
      | .ok op => dispatch op s.bumpPc
      | .error f => .next (raise f s)
  | st => .fault (.noStep st)

/-- `s` with the instruction of an opcode-table row placed where the next step fetches it and the core running: what
the host's LoadMem, SetPC and Run do (70_reset_and_hazards.md R181; log 5, log 20). -/
def State.withFetchWord (s : State) (nbits w : Nat) : State :=
  { s with
    mem := s.mem.writeWord (fetchableAddr s.pc).toNat (BitVec.ofNat 16 (w % 2 ^ nbits))
    pc := fetchableAddr s.pc
    status := .running }

end Sys2Proof.Machine
end

