-- ==== Sys2Proof/Machine/HostPort.lean ====
section
/-! DEFINITION. HostPort.lean: the host's operations between runs (spec/70_reset_and_hazards.md R180 to R185, R192;
20_memory.md R55; 10_state.md R38). No step contains one: the host has no move while the core is Running (R184; log 15, log 18). -/

namespace Sys2Proof.Machine

/-- The host operations that change state (R181). There is none that writes `stack`, `sp` or the fault record (D20). -/
inductive HostOp where
  /-- Reset (R180). -/
  | reset
  /-- LoadMem(a, v) (R182). -/
  | loadMem (a : Nat) (v : Byte)
  /-- SetReg(i, v) (R182). -/
  | setReg (i : RegIx) (v : Byte)
  /-- SetPC(e), any 16-bit value (R182). -/
  | setPC (e : Addr)
  /-- Run (R183). -/
  | run
  deriving DecidableEq, Repr

/-- When the port performs an operation (the table of R181; LoadMem above 0xFFF is refused, R182). -/
def HostOp.allowed : HostOp → State → Bool
  | .reset, s => s.status != .running
  | .loadMem a _, s => s.status == .idle && decide (a < Config.memSize)
  | .setReg _ _, s => s.status == .idle
  | .setPC _, s => s.status == .idle
  | .run, s => s.status == .idle

/-- `Reset()`: everything but memory takes its reset value (R180). -/
def resetKeepingMemory (s : State) : State := { State.reset with mem := s.mem }

/-- What an operation does when it is performed (R181, R182). -/
def HostOp.perform : HostOp → State → State
  | .reset, s => resetKeepingMemory s
  | .loadMem a v, s => { s with mem := s.mem.writeByte a v }
  | .setReg i v, s => s.writeReg i v
  | .setPC e, s => s.setPc e
  | .run, s => { s with status := .running }

/-- An operation attempted: performed where it is allowed, otherwise refused, which changes nothing (R192). -/
def hostStep (o : HostOp) (s : State) : State := if o.allowed s then o.perform s else s

/-- A sequence of operations attempted in order. -/
def hostSteps (os : List HostOp) (s : State) : State := os.foldl (fun t o => hostStep o t) s

/-- What Inspect shows, register by register in the widths of 10_state.md R26 (R185). -/
structure Inspection where
  mem        : Memory
  pc         : Addr
  regs       : Vector Byte 16
  stack      : Vector Addr 16
  sp         : BitVec 5
  status     : BitVec 2
  faultCause : BitVec 3
  faultValue : Addr
  deriving DecidableEq, Repr

/-- Inspect: all the state while the core is not Running, nothing while it is (R181, R184, R185). -/
def inspect (s : State) : Option Inspection :=
  if s.status = .running then none
  else some
    { mem := s.mem, pc := s.pc, regs := s.regs, stack := s.stack, sp := spBits s.sp, status := s.status.code,
      faultCause := s.faultCause.code, faultValue := s.faultValue }

/-- `status` itself, which the host may read at any time (10_state.md R26, R38; C11). -/
def readStatus (s : State) : BitVec 2 := s.status.code

end Sys2Proof.Machine
end

