-- ==== Sys2Proof/Machine/Parts.lean ====
section
/-! DEFINITION. Parts.lean: the five parts of the core and run control with the interfaces of spec/10_state.md section 10
(R31 to R37), one transaction per step, no timing (D13, log 16). They divide the step and add no behaviour; where they could be
read differently from the step, the step governs (R31). -/

namespace Sys2Proof.Machine

/-- fetch_unit's outputs (R32). A signal of several bits that is not driven is `none` (log 16). -/
structure FetchOut where
  memAddr0       : Option (BitVec 12)
  memAddr1       : Option (BitVec 12)
  opcode         : Option Opcode
  opcodeValid    : Bool
  pcAdvance      : Bool
  fetchFault     : Bool
  fetchFaultAddr : Option Addr
  deriving DecidableEq, Repr

/-- The internal signal `fetch_ok`, `pc <= 0x0FFE` (R32). -/
def fetchOk (pc : Addr) : Bool := decide (pc.toNat ≤ 0x0FFE)

/-- The read ports of the memory array, 12 bits of address (R32). -/
def memData (m : Memory) (a : BitVec 12) : Byte := m.readByte a.toNat

/-- The outputs of fetch_unit with `run_en` 0: "the unit does nothing" (R32). -/
def FetchOut.off : FetchOut :=
  { memAddr0 := none, memAddr1 := none, opcode := none, opcodeValid := false, pcAdvance := false, fetchFault := false,
    fetchFaultAddr := none }

/-- fetch_unit (R32): with `run_en` 1 the memory port and the opcode are driven only when `fetch_ok`. -/
def fetchUnit (runEn : Bool) (pc : Addr) (m : Memory) : FetchOut :=
  let a0 : BitVec 12 := pc.extractLsb' 0 12
  let a1 : BitVec 12 := a0 + 1#12
  if runEn then
    { memAddr0 := if fetchOk pc then some a0 else none
      memAddr1 := if fetchOk pc then some a1 else none
      opcode := if fetchOk pc then some (packWord (memData m a0) (memData m a1)) else none
      opcodeValid := fetchOk pc
      pcAdvance := fetchOk pc
      fetchFault := !fetchOk pc
      fetchFaultAddr := some (if 0x0FFF < pc.toNat then pc else 0x1000#16) }
  else FetchOut.off

/-- instruction_decoder's outputs (R33). -/
structure DecoderOut where
  c    : BitVec 4
  x    : RegIx
  y    : RegIx
  d    : BitVec 4
  kk   : Byte
  addr : Target
  kind : Kind
  deriving DecidableEq, Repr

/-- instruction_decoder: combinational and total (R33). -/
def decoder (op : Opcode) : DecoderOut :=
  { c := fieldC op, x := fieldX op, y := fieldY op, d := fieldD op, kk := fieldKK op, addr := fieldAddr op, kind := kindOf op }

/-- The commands to the program_counter and stack controller (R35). -/
inductive Cmd where
  | none
  | load (a : Target)
  | skip
  | pushLoad (a : Target)
  | pop
  deriving DecidableEq, Repr

/-- alu_and_semantics' outputs (R35). -/
structure AluOut where
  wEn         : Bool
  wData       : Byte
  fEn         : Bool
  fBit        : Bool
  cmd         : Cmd
  halt        : Bool
  unsupported : Bool
  deriving DecidableEq, Repr

/-- The outputs of alu_and_semantics with nothing commanded. R35 does not say what `w_data` carries when `w_en` is 0 nor
what `f_bit` carries when `f_en` is 0: DESIGN CHOICE 0x00 and 0, safe, since the register_file reads neither then (log 26). -/
def AluOut.quiet : AluOut :=
  { wEn := false, wData := 0x00#8, fEn := false, fBit := false, cmd := .none, halt := false, unsupported := false }

/-- alu_and_semantics (R35): `sum9`, `carry = sum9[8]`, `eq_imm`, `eq_reg` and the commands of each kind. -/
def alu (kind : Kind) (a b kk : Byte) (addr : Target) : AluOut :=
  let addend := if kind = .addImm then kk else b
  match kind with
  | .halt => { AluOut.quiet with halt := true }
  | .clear => AluOut.quiet
  | .ret => { AluOut.quiet with cmd := .pop }
  | .jump => { AluOut.quiet with cmd := .load addr }
  | .call => { AluOut.quiet with cmd := .pushLoad addr }
  | .skipEqImm => { AluOut.quiet with cmd := if a == kk then .skip else .none }
  | .skipNeqImm => { AluOut.quiet with cmd := if a == kk then .none else .skip }
  | .skipEqReg => { AluOut.quiet with cmd := if a == b then .skip else .none }
  | .loadImm => { AluOut.quiet with wEn := true, wData := kk }
  | .addImm => { AluOut.quiet with wEn := true, wData := (sum9 a addend).extractLsb' 0 8 }
  | .loadReg => { AluOut.quiet with wEn := true, wData := b }
  | .orReg => { AluOut.quiet with wEn := true, wData := a ||| b }
  | .andReg => { AluOut.quiet with wEn := true, wData := a &&& b }
  | .xorReg => { AluOut.quiet with wEn := true, wData := a ^^^ b }
  | .addReg =>
      { AluOut.quiet with
        wEn := true, wData := (sum9 a addend).extractLsb' 0 8, fEn := true, fBit := (sum9 a addend).getLsbD 8 }
  | .unsupported => { AluOut.quiet with unsupported := true }

/-- register_file's read ports (R34). -/
def regPort (v : Vector Byte 16) (idx : RegIx) : Byte := v[idx.toNat]'idx.isLt

/-- register_file's write and flag ports: when both write register 15 the flag port wins (R34). -/
def regFile (v : Vector Byte 16) (wEn : Bool) (wIdx : RegIx) (wData : Byte) (fEn fBit : Bool) : Vector Byte 16 :=
  let v1 := if wEn then v.set wIdx.toNat wData wIdx.isLt else v
  if fEn then v1.set 15 (flagByte fBit) else v1

/-- What the program_counter and stack controller holds and reports (R36). -/
structure ControllerOut where
  pc            : Addr
  stack         : Vector Addr 16
  sp            : Fin 17
  stackOverflow : Bool
  stackUnderflow : Bool
  deriving DecidableEq, Repr

/-- program_counter and stack controller: the advance first, then the command (R36). -/
def controller (pc : Addr) (stack : Vector Addr 16) (sp : Fin 17) (pcAdvance : Bool) (cmd : Cmd) : ControllerOut :=
  let pc1 := if pcAdvance then pc + 2#16 else pc
  match cmd with
  | .none => ⟨pc1, stack, sp, false, false⟩
  | .load a => ⟨a.setWidth 16, stack, sp, false, false⟩
  | .skip => ⟨pc1 + 2#16, stack, sp, false, false⟩
  | .pushLoad a =>
      if h : sp.val < 16 then
        ⟨a.setWidth 16, stack.set sp.val pc1 h, ⟨sp.val + 1, by omega⟩, false, false⟩
      else ⟨pc1, stack, sp, true, false⟩
  | .pop =>
      if h : 0 < sp.val then
        ⟨stack[sp.val - 1]'(by omega), stack, ⟨sp.val - 1, by omega⟩, false, false⟩
      else ⟨pc1, stack, sp, false, true⟩

/-- The signals run control reads (R37). -/
structure RunControlIn where
  halt           : Bool
  fetchFault     : Bool
  fetchFaultAddr : Option Addr
  unsupported    : Bool
  opcode         : Option Opcode
  stackOverflow  : Bool
  stackUnderflow : Bool
  deriving DecidableEq, Repr

/-- Run control: the status and the fault record after the transaction (R37; the record as 10_state.md R25 says). At
most one fault signal is asserted in a step (60_exceptions.md R155). Each `getD` stands where the signal is driven
whenever its fault is asserted; its default is never used in a step (log 26). -/
def runControl (status : Status) (cause : FaultCause) (value : Addr) (i : RunControlIn) :
    Status × FaultCause × Addr :=
  if i.fetchFault then (.faulted, .memoryOutOfBounds, i.fetchFaultAddr.getD 0x1000#16)
  else if i.unsupported then (.faulted, .unsupportedOpcode, i.opcode.getD 0x0000#16)
  else if i.stackOverflow then (.faulted, .stackOverflow, 0x0000#16)
  else if i.stackUnderflow then (.faulted, .stackUnderflow, 0x0000#16)
  else if i.halt then (.halted, cause, value)
  else (status, cause, value)

/-- `run_en` (R32, R37). -/
def runEnable (status : Status) : Bool := status == .running

/-- alu_and_semantics as the step drives it: with no valid opcode nothing is commanded (R31, R33). -/
def aluOfStep (s : State) : AluOut :=
  let f := fetchUnit (runEnable s.status) s.pc s.mem
  match f.opcodeValid, f.opcode with
  | true, some op =>
      let d := decoder op
      alu d.kind (regPort s.regs d.x) (regPort s.regs d.y) d.kk d.addr
  | _, _ => AluOut.quiet

/-- One transaction of the five parts and run control wired together (R31 to R37). With no opcode the write index is not
read, and the 0 that stands for it is the model's (log 26). -/
def stepByParts (s : State) : State :=
  let f := fetchUnit (runEnable s.status) s.pc s.mem
  let x := (f.opcode.map fieldX).getD 0x0#4
  let e := aluOfStep s
  let k := controller s.pc s.stack s.sp f.pcAdvance e.cmd
  let r := runControl s.status s.faultCause s.faultValue
    { halt := e.halt, fetchFault := f.fetchFault, fetchFaultAddr := f.fetchFaultAddr, unsupported := e.unsupported,
      opcode := f.opcode, stackOverflow := k.stackOverflow, stackUnderflow := k.stackUnderflow }
  { mem := s.mem, pc := k.pc, regs := regFile s.regs e.wEn x e.wData e.fEn e.fBit, stack := k.stack, sp := k.sp,
    status := r.1, faultCause := r.2.1, faultValue := r.2.2 }

end Sys2Proof.Machine
end

