-- ==== Sys2Proof/Machine/RunLoop.lean ====
section
/-! DEFINITION. RunLoop.lean: the run loop (spec/40_fetch_and_step.md R88, R89, R91). -/

namespace Sys2Proof.Machine

/-- `while status == Running: Step()` under fuel (R88, R91): a run that has ended stays where it ended (R89). -/
def runLoop : Nat → State → State
  | 0, s => s
  | n + 1, s =>
      match step s with
      | .next t => runLoop n t
      | .fault _ => s
      | .refused _ => s

/-- The run has ended: `Halted`, "success", or `Faulted`, "fatal-termination" (R89; 10_state.md R24). -/
def State.ended (s : State) : Bool := s.status = .halted || s.status = .faulted

end Sys2Proof.Machine
end

