-- ==== Sys2Proof/Safety.lean ====
section
/-! DEFINITION. Safety.lean: the terms the statements use: what stays the same across a step (the frames), which registers
an instruction reads and writes (spec/10_state.md R18), where `pc` goes (R16), the invariant of 10_state.md R30, and what ends a run
safely. -/

namespace Sys2Proof.Machine

/-! ## Frames -/

/-- Every byte of memory reads the same. -/
def SameMemory (s t : State) : Prop := ∀ a : Nat, t.mem.readByte a = s.mem.readByte a

/-- Every general register reads the same. -/
def SameRegs (s t : State) : Prop := ∀ r : RegIx, t.readReg r = s.readReg r

/-- Every general register but those of `xs` reads the same. -/
def SameRegsBut (xs : List RegIx) (s t : State) : Prop := ∀ r : RegIx, r ∉ xs → t.readReg r = s.readReg r

/-- The stack pointer and every stack entry are the same. -/
def SameStack (s t : State) : Prop := t.sp = s.sp ∧ ∀ i : Fin 16, t.stack[i] = s.stack[i]

/-- The run status is the same. -/
def SameStatus (s t : State) : Prop := t.status = s.status

/-- The fault record is the same. -/
def SameRecord (s t : State) : Prop := t.faultCause = s.faultCause ∧ t.faultValue = s.faultValue

/-- Nothing but `V` and `pc` differs. -/
def SameButRegsAndPc (s t : State) : Prop :=
  SameStack s t ∧ SameStatus s t ∧ SameRecord s t ∧ SameMemory s t

/-- Nothing but `pc`, the status and the fault record differs. -/
def SameButPcAndRun (s t : State) : Prop := SameRegs s t ∧ SameStack s t ∧ SameMemory s t

/-! ## What an instruction reads and writes (10_state.md R18) -/

/-- The registers an instruction reads. -/
def regsRead : Instr → List RegIx
  | .halt | .clear | .ret | .jump _ | .call _ => []
  | .skipEqImm x _ | .skipNeqImm x _ => [x]
  | .skipEqReg x y => [x, y]
  | .loadImm _ _ => []
  | .addImm x _ => [x]
  | .loadReg _ y => [y]
  | .orReg x y | .andReg x y | .xorReg x y => [x, y]
  | .addReg x y => [x, y]

/-- The registers an instruction writes. -/
def regsWritten : Instr → List RegIx
  | .halt | .clear | .ret | .jump _ | .call _ => []
  | .skipEqImm _ _ | .skipNeqImm _ _ | .skipEqReg _ _ => []
  | .loadImm x _ | .addImm x _ | .loadReg x _ | .orReg x _ | .andReg x _ | .xorReg x _ => [x]
  | .addReg x _ => [x, 0xF#4]

/-- `p` is the value of `pc` after a step from `s` that ran the instruction, in exact arithmetic (10_state.md R16). -/
def PcRow (i : Instr) (s : State) (p : Nat) : Prop :=
  match i with
  | .ret =>
      (s.sp.val = 0 → p = s.pc.toNat + 2) ∧ ∀ k : Fin 16, s.sp.val = k.val + 1 → p = (s.stack[k]).toNat
  | .jump addr => p = addr.toNat
  | .call addr => p = if s.sp.val = 16 then s.pc.toNat + 2 else addr.toNat
  | .skipEqImm x kk => p = if s.readReg x = kk then s.pc.toNat + 4 else s.pc.toNat + 2
  | .skipNeqImm x kk => p = if s.readReg x = kk then s.pc.toNat + 2 else s.pc.toNat + 4
  | .skipEqReg x y => p = if s.readReg x = s.readReg y then s.pc.toNat + 4 else s.pc.toNat + 2
  | .halt | .clear | .loadImm _ _ | .addImm _ _ | .loadReg _ _ | .orReg _ _ | .andReg _ _ | .xorReg _ _
  | .addReg _ _ => p = s.pc.toNat + 2

/-- What ends a run with a fault in a step from `s` (60_exceptions.md R150, R155), with the fault. -/
def FatalIn (s : State) (f : Fatal) : Prop :=
  (0x0FFE < s.pc.toNat ∧ f = .memoryOutOfBounds (if 0x0FFF < s.pc.toNat then s.pc else 0x1000#16)) ∨
  ∃ op, fetch s = .ok op ∧
    ((kindOf op = .unsupported ∧ f = .unsupportedOpcode op) ∨
     (kindOf op = .call ∧ s.sp.val = 16 ∧ f = .stackOverflow) ∨
     (kindOf op = .ret ∧ s.sp.val = 0 ∧ f = .stackUnderflow))

/-! ## The host's setup (70_reset_and_hazards.md R182) -/

/-- What a list of host operations last set register `r` to, `v` if it did not. -/
def lastSetReg (r : RegIx) : List HostOp → Byte → Byte
  | [], v => v
  | .setReg i w :: os, v => lastSetReg r os (if i = r then w else v)
  | _ :: os, v => lastSetReg r os v

/-- What a list of host operations last set `pc` to, `p` if it did not. -/
def lastSetPc : List HostOp → Addr → Addr
  | [], p => p
  | .setPC e :: os, _ => lastSetPc os e
  | _ :: os, p => lastSetPc os p

/-- What a list of host operations last loaded at the address `a` inside memory, `v` if it did not. -/
def lastLoadMem (a : Nat) : List HostOp → Byte → Byte
  | [], v => v
  | .loadMem b w :: os, v => lastLoadMem a os (if b = a ∧ b < Config.memSize then w else v)
  | _ :: os, v => lastLoadMem a os v

/-! ## Invariants (10_state.md R30, R15) -/

/-- Every live stack entry is a value a CALL can push, 0x0002 to 0x1000. -/
abbrev LiveEntriesInRange (s : State) : Prop :=
  ∀ i : Fin 16, i.val < s.sp.val → 2 ≤ (s.stack[i]).toNat ∧ (s.stack[i]).toNat ≤ 0x1000

/-- The fault record is what the status says it is (10_state.md R25, R30). -/
abbrev RecordConsistent (s : State) : Prop :=
  (s.status = .faulted ↔ s.faultCause ≠ .none) ∧
  (s.faultCause = .none → s.faultValue = 0x0000#16) ∧
  (s.faultCause = .unsupportedOpcode → kindOf s.faultValue = .unsupported) ∧
  (s.faultCause = .stackOverflow → s.faultValue = 0x0000#16) ∧
  (s.faultCause = .stackUnderflow → s.faultValue = 0x0000#16) ∧
  (s.faultCause = .memoryOutOfBounds → 0x1000 ≤ s.faultValue.toNat)

/-- Before the run nothing is on the stack: the host can write neither `stack` nor `sp` (70_reset_and_hazards.md R181). -/
abbrev IdleIsFresh (s : State) : Prop :=
  s.status = .idle → s.sp = 0 ∧ s.stack = Vector.replicate 16 0x0000#16

/-- The invariant of every state that reset, the host's operations and steps reach. -/
abbrev Inv (s : State) : Prop :=
  s.mem.wf = true ∧ LiveEntriesInRange s ∧ RecordConsistent s ∧ IdleIsFresh s

/-- `pc` is a value that steps from a launch at or below 0x1002 produce (10_state.md R15). -/
abbrev PcInReach (s : State) : Prop := s.pc.toNat ≤ 0x1002 ∧ LiveEntriesInRange s

/-- A safe end of a run: HALT, "success" (40_fetch_and_step.md R89). -/
abbrev EndedSafely (s : State) : Prop := s.status = .halted

end Sys2Proof.Machine
end

