-- ==== Sys2Proof/Certificates/Slice0/Obligations.lean ====
section
/-! DEFINITION. Obligations.lean: what the provers are asked to prove, each from the numbered rules of spec/. In every statement about
`exec`, the state given is the one after the fetch's advance (40_fetch_and_step.md R80, R84). -/

open Sys2Proof Sys2Proof.Machine

/-! ## Encoding and decoding (30_encoding.md) -/

/-- Words written out from the patterns of R66 and the decode table of 95_test_vectors.md 2.1. (That 0x5AB1 is rejected is
D12, log 12.) -/
def Obligations.SpecWordsDecodeToTheirInstructions : Prop :=
  decodeWord 0b0000000000000000#16 = .ok .halt ∧
  decodeWord 0b0000000011100000#16 = .ok .clear ∧
  decodeWord 0b0000000011101110#16 = .ok .ret ∧
  decodeWord 0b0001001000110100#16 = .ok (.jump 0x234#12) ∧
  decodeWord 0b0010001101000101#16 = .ok (.call 0x345#12) ∧
  decodeWord 0b0011110001111111#16 = .ok (.skipEqImm 0xC#4 0x7F#8) ∧
  decodeWord 0b0100101000010010#16 = .ok (.skipNeqImm 0xA#4 0x12#8) ∧
  decodeWord 0b0101101010110000#16 = .ok (.skipEqReg 0xA#4 0xB#4) ∧
  decodeWord 0b0110000000101010#16 = .ok (.loadImm 0x0#4 0x2A#8) ∧
  decodeWord 0b1000101010110100#16 = .ok (.addReg 0xA#4 0xB#4) ∧
  decodeWord 0b0101101010110001#16 = .error (.unsupportedOpcode 0x5AB1#16) ∧
  decodeWord 0b1001100110011001#16 = .error (.unsupportedOpcode 0x9999#16)

/-- R62: the six fields by shifting and masking, and by the two fetched bytes. -/
def Obligations.FieldsAreShiftsAndMasksOfTheOpcode : Prop :=
  (∀ op : Opcode,
    (fieldC op).toNat = op.toNat / 4096 % 16 ∧
    (fieldX op).toNat = op.toNat / 256 % 16 ∧
    (fieldY op).toNat = op.toNat / 16 % 16 ∧
    (fieldD op).toNat = op.toNat % 16 ∧
    (fieldKK op).toNat = op.toNat % 256 ∧
    (fieldAddr op).toNat = op.toNat % 4096) ∧
  (∀ b0 b1 : Byte,
    fieldC (packWord b0 b1) = b0.extractLsb' 4 4 ∧
    fieldX (packWord b0 b1) = b0.extractLsb' 0 4 ∧
    fieldY (packWord b0 b1) = b1.extractLsb' 4 4 ∧
    fieldD (packWord b0 b1) = b1.extractLsb' 0 4 ∧
    fieldKK (packWord b0 b1) = b1 ∧
    fieldAddr (packWord b0 b1) = b0.extractLsb' 0 4 ++ b1)

/-- R65, R66: the decision tree and the mask-and-match table select the same instruction for every word, no word
matches two rows, and a word that matches none is UNSUPPORTED (that the patterns are exact is D12, log 12). -/
def Obligations.KindIsTheOneMatchingRowOfTheOpcodeTable : Prop :=
  (∀ op : Opcode, ∀ r ∈ opcodeTable, (op &&& r.mask = r.value ↔ kindOf op = r.kind)) ∧
  (∀ op : Opcode, kindOf op = .unsupported ↔ ∀ r ∈ opcodeTable, op &&& r.mask ≠ r.value) ∧
  (∀ op : Opcode, ∀ r ∈ opcodeTable, ∀ r' ∈ opcodeTable,
    op &&& r.mask = r.value → op &&& r'.mask = r'.value → r = r')

/-- R67, R69, R71: exactly the words the opcode map leaves out are rejected, each with the whole word (the exact
patterns are D12, log 12). -/
def Obligations.RejectedWordsAreThoseOutsideTheOpcodeMap : Prop :=
  ∀ op : Opcode,
    ((∃ r, decodeWord op = .error r) ↔
      (op.toNat / 4096 = 0 ∧ op.toNat ≠ 0x0000 ∧ op.toNat ≠ 0x00E0 ∧ op.toNat ≠ 0x00EE) ∨
      (op.toNat / 4096 = 5 ∧ op.toNat % 16 ≠ 0) ∨
      (op.toNat / 4096 = 8 ∧ 4 < op.toNat % 16) ∨
      8 < op.toNat / 4096) ∧
    ∀ r, decodeWord op = .error r → r = .unsupportedOpcode op

/-- R74: decoding the word, or the two bytes, of an instruction gives the instruction back with every operand. -/
def Obligations.DecodeOfEncodeIsTheInstruction : Prop :=
  ∀ i : Instr, decodeWord (encode i) = .ok i ∧ ∀ rest, decodeBytes (encodeBytes i ++ rest) = .ok (i, rest)

/-- R74: "each supported opcode has exactly one spelling". -/
def Obligations.EncodeOfDecodeIsTheOpcode : Prop :=
  ∀ (op : Opcode) (i : Instr), decodeWord op = .ok i → encode i = op

/-- R74's table, in arithmetic, and the order of the bytes. -/
def Obligations.EncodedWordsFollowTheEncodingTable : Prop :=
  (encode .halt).toNat = 0x0000 ∧ (encode .clear).toNat = 0x00E0 ∧ (encode .ret).toNat = 0x00EE ∧
  (∀ a : Target, (encode (.jump a)).toNat = 0x1000 + a.toNat ∧ (encode (.call a)).toNat = 0x2000 + a.toNat) ∧
  (∀ (x : RegIx) (kk : Byte),
    (encode (.skipEqImm x kk)).toNat = 0x3000 + x.toNat * 256 + kk.toNat ∧
    (encode (.skipNeqImm x kk)).toNat = 0x4000 + x.toNat * 256 + kk.toNat ∧
    (encode (.loadImm x kk)).toNat = 0x6000 + x.toNat * 256 + kk.toNat ∧
    (encode (.addImm x kk)).toNat = 0x7000 + x.toNat * 256 + kk.toNat) ∧
  (∀ x y : RegIx,
    (encode (.skipEqReg x y)).toNat = 0x5000 + x.toNat * 256 + y.toNat * 16 ∧
    (encode (.loadReg x y)).toNat = 0x8000 + x.toNat * 256 + y.toNat * 16 ∧
    (encode (.orReg x y)).toNat = 0x8001 + x.toNat * 256 + y.toNat * 16 ∧
    (encode (.andReg x y)).toNat = 0x8002 + x.toNat * 256 + y.toNat * 16 ∧
    (encode (.xorReg x y)).toNat = 0x8003 + x.toNat * 256 + y.toNat * 16 ∧
    (encode (.addReg x y)).toNat = 0x8004 + x.toNat * 256 + y.toNat * 16) ∧
  (∀ i : Instr, ∃ b0 b1 : Byte, encodeBytes i = [b0, b1] ∧ b0.toNat * 256 + b1.toNat = (encode i).toNat)

/-- R72, R74, the ranges: a spelling stands for an instruction exactly when it is well formed, and the spelling of an
instruction stands for it. (The form of a spelling is D15, log 19.) -/
def Obligations.WellFormedSpellingsAreExactlyTheInstructions : Prop :=
  (∀ i : Instr, i.wellFormed = true ∧ i.spelling.toInstr = some i) ∧
  (∀ p : Spelling, (∃ i, p.toInstr = some i) ↔ p.wellFormed = true) ∧
  (∀ (p : Spelling) (i : Instr), p.toInstr = some i → i.spelling.kind = p.kind ∧ i.spelling.operands = p.operands)

/-! ## Memory and the fetch (20_memory.md, 40_fetch_and_step.md) -/

/-- R43: `MemRead(a, 1)` for every 16-bit `a`; the address is not reduced modulo 4096. (The name and the value of the
fault are D4, log 9.) -/
def Obligations.OneByteReadIsBoundsCheckedAndNeverWraps : Prop :=
  ∀ (m : Memory) (a : Addr),
    (a.toNat ≤ 0x0FFF → memRead1 m a = .ok (m.readByte a.toNat)) ∧
    (0x0FFF < a.toNat → memRead1 m a = .error (.memoryOutOfBounds a))

/-- R83 with R81, R42, R45: a fetch that succeeds packs the byte at `pc` above the byte at `pc + 1`, whatever the parity of
`pc` (D3, log 10). -/
def Obligations.FetchPacksTheTwoBytesAtPcBigEndian : Prop :=
  ∀ s : State, s.pc.toNat ≤ 0x0FFE →
    ∃ op, fetch s = .ok op ∧
      op.toNat = (s.mem.readByte s.pc.toNat).toNat * 256 + (s.mem.readByte (s.pc.toNat + 1)).toNat ∧
      op.extractLsb' 8 8 = s.mem.readByte s.pc.toNat ∧
      op.extractLsb' 0 8 = s.mem.readByte (s.pc.toNat + 1)

/-- The canonical form means something: two memories in the form that read alike everywhere are equal (log 1; the
model's form, no rule of the spec). -/
def Obligations.MemoriesThatReadAlikeAreEqual : Prop :=
  ∀ m m' : Memory, m.wf = true → m'.wf = true → (∀ a, m.readByte a = m'.readByte a) → m = m'

/-- R82, R154, R156: a fetch at `pc > 0x0FFE` ends the run with MemoryOutOfBounds and the lowest out-of-range address,
and nothing else changes, `pc` included. (The name, the value and the unchanged `pc` are D4 and D5; log 9.) -/
def Obligations.FetchOutsideMemoryFaultsWithoutAdvancing : Prop :=
  ∀ s : State, s.status = .running → 0x0FFE < s.pc.toNat →
    ∃ t, step s = .next t ∧ t.status = .faulted ∧ t.faultCause = .memoryOutOfBounds ∧
      t.faultValue.toNat = max s.pc.toNat 0x1000 ∧ t.pc = s.pc ∧ SameButPcAndRun s t

/-! ## The step (40_fetch_and_step.md) -/

/-- R80, R84, R86, R87: when the two bytes at `pc` decode to an instruction, the step is that instruction executed in
the state whose `pc` is 2 further, with nothing else changed. -/
def Obligations.StepExecutesTheDecodedInstruction : Prop :=
  ∀ (s : State) (i : Instr), s.status = .running → s.pc.toNat ≤ 0x0FFE →
    decodeBytes [s.mem.readByte s.pc.toNat, s.mem.readByte (s.pc.toNat + 1)] = .ok (i, []) →
    step s = exec i { s with pc := s.pc + 2#16 } ∧ (s.pc + 2#16).toNat = s.pc.toNat + 2

/-- The launch of one word (log 5, log 20; the model's own `withFetchWord`): the very next step runs exactly the encoded
instruction, at the `pc` the state had if a fetch can be made there, and every byte but the two is as before. -/
def Obligations.PlacedWordIsRunByTheNextStep : Prop :=
  ∀ (s : State) (i : Instr), s.mem.wf = true →
    (∃ a : State, step (s.withFetchWord 16 (encode i).toNat) = exec i a ∧
      a = { s.withFetchWord 16 (encode i).toNat with pc := a.pc } ∧
      a.pc.toNat = (s.withFetchWord 16 (encode i).toNat).pc.toNat + 2) ∧
    (s.pc.toNat ≤ 0x0FFE → (s.withFetchWord 16 (encode i).toNat).pc = s.pc) ∧
    SameRegs s (s.withFetchWord 16 (encode i).toNat) ∧ SameStack s (s.withFetchWord 16 (encode i).toNat) ∧
    SameRecord s (s.withFetchWord 16 (encode i).toNat) ∧
    (s.withFetchWord 16 (encode i).toNat).mem.wf = true ∧
    ∀ b : Nat, b ≠ (s.withFetchWord 16 (encode i).toNat).pc.toNat →
      b ≠ (s.withFetchWord 16 (encode i).toNat).pc.toNat + 1 →
      (s.withFetchWord 16 (encode i).toNat).mem.readByte b = s.mem.readByte b

/-- R151, R156: a fetched word outside the supported set raises UnsupportedOpcode with the whole word, `pc` advanced,
nothing else changed (D6). -/
def Obligations.UnsupportedWordFaultsAfterTheAdvance : Prop :=
  ∀ (s : State) (op : Opcode), s.status = .running → fetch s = .ok op → kindOf op = .unsupported →
    ∃ t, step s = .next t ∧ t.status = .faulted ∧ t.faultCause = .unsupportedOpcode ∧ t.faultValue = op ∧
      t.pc.toNat = s.pc.toNat + 2 ∧ SameButPcAndRun s t

/-- "A step exists if and only if `status = Running`" (R80, D23): the model's step answers a next state exactly then,
and it stops only by naming the status that has no step (log 4). -/
def Obligations.StepExistsExactlyWhileRunning : Prop :=
  ∀ s : State, ((∃ t, step s = .next t) ↔ s.status = .running) ∧
    (s.status ≠ .running → step s = .fault (.noStep s.status))

/-- R89, R150, R155: a step ends Faulted with the fault `f` exactly when `f`'s one condition holds, ends Halted exactly
when it fetched 0x0000, and otherwise stays Running; no other event ends a run. (The fourth fault and the values are D4
and D8, log 9.) -/
def Obligations.RunEndsOnlyAtHaltOrAtOneOfTheFourFaults : Prop :=
  ∀ s t : State, s.status = .running → step s = .next t →
    (t.status = .halted ↔ fetch s = .ok 0x0000#16) ∧
    (t.status = .faulted ↔ ∃ f, FatalIn s f) ∧
    (∀ f, FatalIn s f → t.faultCause = f.cause ∧ t.faultValue = f.value) ∧
    (∀ f f', FatalIn s f → FatalIn s f' → f = f') ∧
    t.status ≠ .idle

/-- R156, R157 (T5): a step that ends Faulted changes nothing but `pc`, the status and the fault record; `pc` moves by 2
for the three dispatch-time faults and not at all for the fetch's (D5, D6). -/
def Obligations.FaultingStepIsPrecise : Prop :=
  ∀ s t : State, step s = .next t → t.status = .faulted →
    SameButPcAndRun s t ∧ t.faultCause ≠ .none ∧
    (t.faultCause = .memoryOutOfBounds → t.pc = s.pc) ∧
    (t.faultCause ≠ .memoryOutOfBounds → t.pc.toNat = s.pc.toNat + 2)

/-- R157: what `raise` does and leaves alone, with the codes and values of R150 (D7, D8; log 3, log 9). -/
def Obligations.RaiseWritesOnlyStatusAndFaultRecord : Prop :=
  ∀ (f : Fatal) (s : State),
    (raise f s).status = .faulted ∧ (raise f s).pc = s.pc ∧ SameButPcAndRun s (raise f s) ∧
    (∀ op, f = .unsupportedOpcode op → (raise f s).faultCause.code = 1#3 ∧ (raise f s).faultValue = op) ∧
    (f = .stackOverflow → (raise f s).faultCause.code = 2#3 ∧ (raise f s).faultValue = 0x0000#16) ∧
    (f = .stackUnderflow → (raise f s).faultCause.code = 3#3 ∧ (raise f s).faultValue = 0x0000#16) ∧
    (∀ a, f = .memoryOutOfBounds a → (raise f s).faultCause.code = 4#3 ∧ (raise f s).faultValue = a)

/-- R16: where `pc` goes, row by row, in exact arithmetic. (The rows of the faults are D5 and D6, log 9.) -/
def Obligations.PcAfterAStepIsThatOfTheTable : Prop :=
  ∀ s : State, s.status = .running →
    (0x0FFE < s.pc.toNat → ∃ t, step s = .next t ∧ t.pc = s.pc) ∧
    (∀ op i, fetch s = .ok op → decodeWord op = .ok i → ∃ t, step s = .next t ∧ PcRow i s t.pc.toNat) ∧
    (∀ op r, fetch s = .ok op → decodeWord op = .error r →
      ∃ t, step s = .next t ∧ t.pc.toNat = s.pc.toNat + 2)

/-- R41 (T3): no step and no run changes a byte of memory. -/
def Obligations.RunLeavesMemoryAsItWas : Prop :=
  ∀ (n : Nat) (s : State), SameMemory s (runLoop n s) ∧ (runLoop n s).mem = s.mem

/-- R18: a step changes no register its instruction's row does not name as written. -/
def Obligations.StepWritesOnlyTheRegistersOfTheTable : Prop :=
  ∀ s t : State, step s = .next t → ∀ r : RegIx, t.readReg r ≠ s.readReg r →
    ∃ op i, fetch s = .ok op ∧ decodeWord op = .ok i ∧ r ∈ regsWritten i

/-- R18, the other column: a register an instruction does not read has no influence on anything but itself: giving it
another value before the instruction gives the same result, with that value still there unless the instruction writes it. -/
def Obligations.UnreadRegisterDoesNotInfluenceAnInstruction : Prop :=
  ∀ (i : Instr) (s t : State) (r : RegIx) (v : Byte), r ∉ regsRead i → exec i s = .next t →
    exec i (s.writeReg r v) = .next (if r ∈ regsWritten i then t else t.writeReg r v)

/-- R139, R20 (T8): VF changes only by ADD_REG or as a plain destination; the skips and control instructions never
change it. (For the logic operations this is D18.) -/
def Obligations.FlagRegisterChangesOnlyByAddRegOrAsDestination : Prop :=
  ∀ s t : State, step s = .next t → t.readReg 0xF#4 ≠ s.readReg 0xF#4 →
    ∃ op, fetch s = .ok op ∧
      ((kindOf op = .addReg ∧ (t.readReg 0xF#4 = 0x00#8 ∨ t.readReg 0xF#4 = 0x01#8)) ∨
       (fieldX op = 0xF#4 ∧ kindOf op ∈ [Kind.loadImm, .addImm, .loadReg, .orReg, .andReg, .xorReg]))

/-- R22, R26, R113: `sp` moves only by CALL, up by 1, and by RETURN, down by 1; a stack entry changes only by a CALL's
push, at the old `sp`, where the address after the CALL is put. (That RETURN keeps the popped entry is R23, D10, log 14.) -/
def Obligations.StackChangesOnlyByCallAndReturn : Prop :=
  ∀ s t : State, step s = .next t →
    (t.sp ≠ s.sp → ∃ op, fetch s = .ok op ∧
      ((kindOf op = .call ∧ t.sp.val = s.sp.val + 1) ∨ (kindOf op = .ret ∧ t.sp.val + 1 = s.sp.val))) ∧
    (∀ k : Fin 16, t.stack[k] ≠ s.stack[k] →
      ∃ op, fetch s = .ok op ∧ kindOf op = .call ∧ k.val = s.sp.val ∧ (t.stack[k]).toNat = s.pc.toNat + 2)

/-! ## The instructions: encoding, effect, frame, completion -/

/-- R100. -/
def Obligations.HaltEndsTheRun : Prop :=
  (∀ op : Opcode, decodeWord op = .ok .halt ↔ op = 0x0000#16) ∧
  (∀ s : State, ∃ t, exec .halt s = .next t ∧ t.status = .halted ∧ t.pc = s.pc ∧
    SameRegs s t ∧ SameStack s t ∧ SameRecord s t ∧ SameMemory s t ∧ ∀ u, step t ≠ .next u) ∧
  (∀ s : State, s.status = .running → fetch s = .ok 0x0000#16 →
    ∃ t, step s = .next t ∧ t.status = .halted ∧ t.pc.toNat = s.pc.toNat + 2 ∧
      SameRegs s t ∧ SameStack s t ∧ SameRecord s t ∧ SameMemory s t)

/-- R101. -/
def Obligations.ClearDoesNothing : Prop :=
  (∀ op : Opcode, decodeWord op = .ok .clear ↔ op = 0x00E0#16) ∧
  (∀ s : State, ∃ t, exec .clear s = .next t ∧ t.pc = s.pc ∧ SameRegs s t ∧ SameButRegsAndPc s t) ∧
  (∀ s : State, s.status = .running → fetch s = .ok 0x00E0#16 →
    ∃ t, step s = .next t ∧ t.status = .running ∧ t.pc.toNat = s.pc.toNat + 2 ∧
      SameRegs s t ∧ SameButRegsAndPc s t)

/-- R110, with R23's retained entry (D10, log 14). (What the underflow leaves is D6, log 9.) -/
def Obligations.ReturnPopsIntoPc : Prop :=
  (∀ op : Opcode, decodeWord op = .ok .ret ↔ op = 0x00EE#16) ∧
  (∀ (s : State) (k : Fin 16), s.sp.val = k.val + 1 →
    ∃ t, exec .ret s = .next t ∧ t.pc = s.stack[k] ∧ t.sp.val = k.val ∧
      (∀ j : Fin 16, t.stack[j] = s.stack[j]) ∧ SameRegs s t ∧ SameStatus s t ∧ SameRecord s t ∧ SameMemory s t) ∧
  (∀ s : State, s.sp.val = 0 →
    ∃ t, exec .ret s = .next t ∧ t.status = .faulted ∧ t.faultCause = .stackUnderflow ∧ t.pc = s.pc ∧
      SameButPcAndRun s t)

/-- R111. -/
def Obligations.JumpLoadsItsTarget : Prop :=
  (∀ (op : Opcode) (a : Target),
    decodeWord op = .ok (.jump a) ↔ op &&& 0xF000#16 = 0x1000#16 ∧ a = op.extractLsb' 0 12) ∧
  (∀ (a : Target) (s : State), ∃ t, exec (.jump a) s = .next t ∧ t.pc.toNat = a.toNat ∧
    SameRegs s t ∧ SameButRegsAndPc s t)

/-- R112. (What the overflow leaves is D6, log 9.) -/
def Obligations.CallPushesTheReturnAddress : Prop :=
  (∀ (op : Opcode) (a : Target),
    decodeWord op = .ok (.call a) ↔ op &&& 0xF000#16 = 0x2000#16 ∧ a = op.extractLsb' 0 12) ∧
  (∀ (a : Target) (s : State) (k : Fin 16), s.sp.val = k.val →
    ∃ t, exec (.call a) s = .next t ∧ t.pc.toNat = a.toNat ∧ t.stack[k] = s.pc ∧ t.sp.val = k.val + 1 ∧
      (∀ j : Fin 16, j ≠ k → t.stack[j] = s.stack[j]) ∧
      SameRegs s t ∧ SameStatus s t ∧ SameRecord s t ∧ SameMemory s t) ∧
  (∀ (a : Target) (s : State), s.sp.val = 16 →
    ∃ t, exec (.call a) s = .next t ∧ t.status = .faulted ∧ t.faultCause = .stackOverflow ∧ t.pc = s.pc ∧
      SameButPcAndRun s t)

/-- R114, with R23's retained entry (D10, log 14). -/
def Obligations.PushAndPopTestBeforeTheyMove : Prop :=
  (∀ (v : Addr) (s : State) (k : Fin 16), s.sp.val = k.val →
    ∃ t, push v s = .ok t ∧ t.stack[k] = v ∧ t.sp.val = k.val + 1 ∧
      (∀ j : Fin 16, j ≠ k → t.stack[j] = s.stack[j]) ∧ t.pc = s.pc ∧ SameRegs s t ∧ SameMemory s t ∧
      pop t = .ok (v, { t with sp := s.sp })) ∧
  (∀ (v : Addr) (s : State), s.sp.val = 16 → push v s = .error .stackOverflow) ∧
  (∀ (s : State) (k : Fin 16), s.sp.val = k.val + 1 →
    ∃ t, pop s = .ok (s.stack[k], t) ∧ t.sp.val = k.val ∧ (∀ j : Fin 16, t.stack[j] = s.stack[j]) ∧
      t.pc = s.pc ∧ SameRegs s t ∧ SameMemory s t) ∧
  (∀ s : State, s.sp.val = 0 → pop s = .error .stackUnderflow)

/-- R120, R123. -/
def Obligations.SkipEqImmSkipsIffEqual : Prop :=
  (∀ (op : Opcode) (x : RegIx) (kk : Byte),
    decodeWord op = .ok (.skipEqImm x kk) ↔
      op &&& 0xF000#16 = 0x3000#16 ∧ x = op.extractLsb' 8 4 ∧ kk = op.extractLsb' 0 8) ∧
  (∀ (x : RegIx) (kk : Byte) (s : State), ∃ t, exec (.skipEqImm x kk) s = .next t ∧
    (s.readReg x = kk → t.pc = s.pc + 2#16) ∧ (s.readReg x ≠ kk → t.pc = s.pc) ∧
    SameRegs s t ∧ SameButRegsAndPc s t)

/-- R121: the exact complement of SKIP_EQ_IMM. -/
def Obligations.SkipNeqImmSkipsIffDifferent : Prop :=
  (∀ (op : Opcode) (x : RegIx) (kk : Byte),
    decodeWord op = .ok (.skipNeqImm x kk) ↔
      op &&& 0xF000#16 = 0x4000#16 ∧ x = op.extractLsb' 8 4 ∧ kk = op.extractLsb' 0 8) ∧
  (∀ (x : RegIx) (kk : Byte) (s : State), ∃ t, exec (.skipNeqImm x kk) s = .next t ∧
    (s.readReg x ≠ kk → t.pc = s.pc + 2#16) ∧ (s.readReg x = kk → t.pc = s.pc) ∧
    SameRegs s t ∧ SameButRegsAndPc s t) ∧
  (∀ (x : RegIx) (kk : Byte) (s t u : State),
    exec (.skipEqImm x kk) s = .next t → exec (.skipNeqImm x kk) s = .next u →
    (t.pc = s.pc + 2#16 ∧ u.pc = s.pc) ∨ (t.pc = s.pc ∧ u.pc = s.pc + 2#16))

/-- R122: `x = y` always skips. (That no word of class 5 with another low nibble is SKIP_EQ_REG is D12, log 12.) -/
def Obligations.SkipEqRegSkipsIffEqual : Prop :=
  (∀ (op : Opcode) (x y : RegIx),
    decodeWord op = .ok (.skipEqReg x y) ↔
      op &&& 0xF00F#16 = 0x5000#16 ∧ x = op.extractLsb' 8 4 ∧ y = op.extractLsb' 4 4) ∧
  (∀ (x y : RegIx) (s : State), ∃ t, exec (.skipEqReg x y) s = .next t ∧
    (s.readReg x = s.readReg y → t.pc = s.pc + 2#16) ∧ (s.readReg x ≠ s.readReg y → t.pc = s.pc) ∧
    SameRegs s t ∧ SameButRegsAndPc s t) ∧
  (∀ (x : RegIx) (s : State), ∃ t, exec (.skipEqReg x x) s = .next t ∧ t.pc = s.pc + 2#16)

/-- R123, in the step: a taken skip at A leaves `pc = A + 4` and a skip not taken A + 2, exactly; the bytes passed over play no
part. -/
def Obligations.SkippedBytesPlayNoPart : Prop :=
  ∀ (s : State) (op : Opcode) (m' : Memory), s.status = .running → fetch s = .ok op →
    kindOf op ∈ [Kind.skipEqImm, .skipNeqImm, .skipEqReg] →
    m'.readByte s.pc.toNat = s.mem.readByte s.pc.toNat →
    m'.readByte (s.pc.toNat + 1) = s.mem.readByte (s.pc.toNat + 1) →
    ∃ t, step s = .next t ∧ t.status = .running ∧
      (t.pc.toNat = s.pc.toNat + 2 ∨ t.pc.toNat = s.pc.toNat + 4) ∧ SameRegs s t ∧ SameButRegsAndPc s t ∧
      step { s with mem := m' } = .next { t with mem := m' }

/-- R130. -/
def Obligations.LoadImmLoadsItsImmediate : Prop :=
  (∀ (op : Opcode) (x : RegIx) (kk : Byte),
    decodeWord op = .ok (.loadImm x kk) ↔
      op &&& 0xF000#16 = 0x6000#16 ∧ x = op.extractLsb' 8 4 ∧ kk = op.extractLsb' 0 8) ∧
  (∀ (x : RegIx) (kk : Byte) (s : State), ∃ t, exec (.loadImm x kk) s = .next t ∧ t.readReg x = kk ∧
    SameRegsBut [x] s t ∧ t.pc = s.pc ∧ SameButRegsAndPc s t)

/-- R131: modulo 256, and no flag: `V[15]` changes only when it is the destination. -/
def Obligations.AddImmAddsModulo256WithoutFlag : Prop :=
  (∀ (op : Opcode) (x : RegIx) (kk : Byte),
    decodeWord op = .ok (.addImm x kk) ↔
      op &&& 0xF000#16 = 0x7000#16 ∧ x = op.extractLsb' 8 4 ∧ kk = op.extractLsb' 0 8) ∧
  (∀ (x : RegIx) (kk : Byte) (s : State), ∃ t, exec (.addImm x kk) s = .next t ∧
    (t.readReg x).toNat = ((s.readReg x).toNat + kk.toNat) % 256 ∧
    SameRegsBut [x] s t ∧ t.pc = s.pc ∧ SameButRegsAndPc s t)

/-- R132. -/
def Obligations.LoadRegCopiesTheSource : Prop :=
  (∀ (op : Opcode) (x y : RegIx),
    decodeWord op = .ok (.loadReg x y) ↔
      op &&& 0xF00F#16 = 0x8000#16 ∧ x = op.extractLsb' 8 4 ∧ y = op.extractLsb' 4 4) ∧
  (∀ (x y : RegIx) (s : State), ∃ t, exec (.loadReg x y) s = .next t ∧ t.readReg x = s.readReg y ∧
    SameRegsBut [x] s t ∧ t.pc = s.pc ∧ SameButRegsAndPc s t)

/-- R133, R134, R135: each of the 8 bits independently, and no flag (D18, log 13). -/
def Obligations.LogicInstructionsActBitByBitWithoutFlag : Prop :=
  (∀ (op : Opcode) (x y : RegIx),
    (decodeWord op = .ok (.orReg x y) ↔
      op &&& 0xF00F#16 = 0x8001#16 ∧ x = op.extractLsb' 8 4 ∧ y = op.extractLsb' 4 4) ∧
    (decodeWord op = .ok (.andReg x y) ↔
      op &&& 0xF00F#16 = 0x8002#16 ∧ x = op.extractLsb' 8 4 ∧ y = op.extractLsb' 4 4) ∧
    (decodeWord op = .ok (.xorReg x y) ↔
      op &&& 0xF00F#16 = 0x8003#16 ∧ x = op.extractLsb' 8 4 ∧ y = op.extractLsb' 4 4)) ∧
  (∀ (x y : RegIx) (s : State), ∃ t, exec (.orReg x y) s = .next t ∧
    (∀ n, (t.readReg x).getLsbD n = ((s.readReg x).getLsbD n || (s.readReg y).getLsbD n)) ∧
    SameRegsBut [x] s t ∧ t.pc = s.pc ∧ SameButRegsAndPc s t) ∧
  (∀ (x y : RegIx) (s : State), ∃ t, exec (.andReg x y) s = .next t ∧
    (∀ n, (t.readReg x).getLsbD n = ((s.readReg x).getLsbD n && (s.readReg y).getLsbD n)) ∧
    SameRegsBut [x] s t ∧ t.pc = s.pc ∧ SameButRegsAndPc s t) ∧
  (∀ (x y : RegIx) (s : State), ∃ t, exec (.xorReg x y) s = .next t ∧
    (∀ n, (t.readReg x).getLsbD n = ((s.readReg x).getLsbD n != (s.readReg y).getLsbD n)) ∧
    SameRegsBut [x] s t ∧ t.pc = s.pc ∧ SameButRegsAndPc s t)

/-- R136, R137, R138: the low 8 bits of the exact sum into `V[x]`, then the carry, 0 or 1, into `V[15]`; with `x = 0xF` the
carry is what stays (D11, log 11). -/
def Obligations.AddRegStoresTheSumAndThenTheCarry : Prop :=
  (∀ (op : Opcode) (x y : RegIx),
    decodeWord op = .ok (.addReg x y) ↔
      op &&& 0xF00F#16 = 0x8004#16 ∧ x = op.extractLsb' 8 4 ∧ y = op.extractLsb' 4 4) ∧
  (∀ (x y : RegIx) (s : State), ∃ t, exec (.addReg x y) s = .next t ∧
    (x ≠ 0xF#4 → (t.readReg x).toNat = ((s.readReg x).toNat + (s.readReg y).toNat) % 256) ∧
    (255 < (s.readReg x).toNat + (s.readReg y).toNat → t.readReg 0xF#4 = 0x01#8) ∧
    ((s.readReg x).toNat + (s.readReg y).toNat ≤ 255 → t.readReg 0xF#4 = 0x00#8) ∧
    SameRegsBut [x, 0xF#4] s t ∧ t.pc = s.pc ∧ SameButRegsAndPc s t)

/-- R188: a value written by one instruction is seen by the very next. -/
def Obligations.NextInstructionSeesTheWrittenValue : Prop :=
  (∀ (x y : RegIx) (kk : Byte) (s t : State), exec (.loadImm x kk) s = .next t →
    ∃ u, exec (.loadReg y x) t = .next u ∧ u.readReg y = kk ∧ u.readReg x = kk) ∧
  (∀ (x y : RegIx) (s t : State), exec (.addReg x y) s = .next t →
    ∃ u, exec (.skipEqImm 0xF#4 0x01#8) t = .next u ∧
      (u.pc = t.pc + 2#16 ↔ 255 < (s.readReg x).toNat + (s.readReg y).toNat)) ∧
  (∀ (a : Target) (s t : State), s.sp.val < 16 → exec (.call a) s = .next t →
    ∃ u, exec .ret t = .next u ∧ u.pc = s.pc ∧ u.sp = s.sp)

/-! ## Calls over a run (42_control_flow.md R113, R115) -/

/-- R115 read with R113 (log 21): let a CALL at A execute with `sp = s`, let any number of steps follow during which `sp`
stays above `s`, and let a RETURN then execute with `sp = s + 1`: it leaves `pc = A + 2`, `sp = s`, the entries below `s` as
they were before the CALL, and A + 2 in entry `s` (that the popped entry stays is R23, D10, log 14). -/
def Obligations.ReturnGoesBackToTheMatchingCall : Prop :=
  ∀ (n : Nat) (s0 s1 sn t : State) (op op' : Opcode) (k : Fin 16),
    s0.status = .running → fetch s0 = .ok op → kindOf op = .call → s0.sp.val = k.val →
    step s0 = .next s1 →
    (∀ m ≤ n, k.val < (runLoop m s1).sp.val) →
    sn = runLoop n s1 → sn.status = .running → sn.sp.val = k.val + 1 →
    fetch sn = .ok op' → kindOf op' = .ret → step sn = .next t →
    t.pc.toNat = s0.pc.toNat + 2 ∧ t.sp = s0.sp ∧
    (∀ j : Fin 16, j.val < k.val → t.stack[j] = s0.stack[j]) ∧
    (t.stack[k]).toNat = s0.pc.toNat + 2

/-! ## Invariants (10_state.md R30, R15) -/

/-- The invariant at reset (the reset values are D7, D8, D9; log 2, log 3). -/
def Obligations.ResetSatisfiesTheInvariant : Prop :=
  Inv State.reset ∧ PcInReach State.reset

/-- R30: every step from a state with the invariant gives one with it: memory canonical, live return addresses in
0x0002 to 0x1000, the fault record agreeing with the status (D8, log 9), an Idle core fresh. -/
def Obligations.EveryStepKeepsTheInvariant : Prop :=
  ∀ s t : State, Inv s → step s = .next t → Inv t

/-- R15 (T2): a step keeps `pc` at or below 0x1002 and live entries at or below 0x1000, and the advance of a fetched
instruction never wraps. -/
def Obligations.EveryStepKeepsPcInReach : Prop :=
  (∀ s t : State, PcInReach s → step s = .next t → PcInReach t) ∧
  (∀ (s : State) (op : Opcode), fetch s = .ok op → (s.pc + 2#16).toNat = s.pc.toNat + 2)

/-- R30 across R181, R192: every host operation, performed or refused, keeps the invariant. (What the port refuses and that
nothing presets the stack are D16 and D20, log 15; the fault record is D8, log 9.) -/
def Obligations.EveryHostOperationKeepsTheInvariant : Prop :=
  ∀ (o : HostOp) (s : State), Inv s → Inv (hostStep o s)

/-! ## Reset and the host port (70_reset_and_hazards.md) -/

/-- R180, R29: Reset outside a run; memory is not touched, everything else takes its reset value (D7, D8, D9; log 2,
log 3). -/
def Obligations.ResetSetsEverythingButMemory : Prop :=
  ∀ s : State, s.status ≠ .running →
    (hostStep .reset s).pc = 0x0000#16 ∧ (hostStep .reset s).sp.val = 0 ∧
    (∀ r, (hostStep .reset s).readReg r = 0x00#8) ∧ (∀ k : Fin 16, (hostStep .reset s).stack[k] = 0x0000#16) ∧
    (hostStep .reset s).status = .idle ∧ (hostStep .reset s).faultCause.code = 0#3 ∧
    (hostStep .reset s).faultValue = 0x0000#16 ∧ SameMemory s (hostStep .reset s)

/-- R192, R24, R158: what the port refuses changes nothing: everything while Running, everything but Reset once the run
has ended, LoadMem above 0xFFF always (D16, log 15). -/
def Obligations.RefusedHostOperationsChangeNothing : Prop :=
  (∀ (o : HostOp) (s : State), s.status = .running → hostStep o s = s) ∧
  (∀ (o : HostOp) (s : State), s.status = .halted ∨ s.status = .faulted → o ≠ .reset → hostStep o s = s) ∧
  (∀ (a : Nat) (v : Byte) (s : State), 0x0FFF < a → hostStep (.loadMem a v) s = s)

/-- R181, R182, R55: what the host's writes do in Idle, each with its frame. -/
def Obligations.HostWritesChangeWhatTheyNameOnly : Prop :=
  ∀ s : State, s.status = .idle → s.mem.wf = true →
    (∀ (a : Nat) (v : Byte), a ≤ 0x0FFF →
      (hostStep (.loadMem a v) s).mem.readByte a = v ∧
      (∀ b, b ≠ a → (hostStep (.loadMem a v) s).mem.readByte b = s.mem.readByte b) ∧
      hostStep (.loadMem a v) s = { s with mem := (hostStep (.loadMem a v) s).mem }) ∧
    (∀ (i : RegIx) (v : Byte),
      (hostStep (.setReg i v) s).readReg i = v ∧ SameRegsBut [i] s (hostStep (.setReg i v) s) ∧
      (hostStep (.setReg i v) s).pc = s.pc ∧ SameButRegsAndPc s (hostStep (.setReg i v) s)) ∧
    (∀ e : Addr, hostStep (.setPC e) s = { s with pc := e }) ∧
    hostStep .run s = { s with status := .running }

/-- R183: after Reset, any host writes whatever, refused ones among them, and Run, the core is in a launch state:
Running, `sp = 0`, the stack zero, no fault; with no write between, `pc` and `V` are zero and memory is as it was; and
running once more is refused (R192). (The zeros of `V` and `stack` are D9, log 2; the refusals are D16, log 15.) -/
def Obligations.LaunchStateIsFresh : Prop :=
  ∀ (s : State) (os : List HostOp), s.status ≠ .running → (∀ o ∈ os, o ≠ HostOp.run) →
    let t := hostSteps ((HostOp.reset :: os) ++ [.run]) s
    t.status = .running ∧ t.sp.val = 0 ∧ (∀ k : Fin 16, t.stack[k] = 0x0000#16) ∧
      t.faultCause = .none ∧ t.faultValue = 0x0000#16 ∧
      (os = [] → t.pc = 0x0000#16 ∧ (∀ r, t.readReg r = 0x00#8) ∧ SameMemory s t) ∧ hostStep .run t = t

/-- R182, R183: of the host's writes in Idle the last one to a place wins, and a place not written keeps its value.
(That a LoadMem above 0x0FFF is refused and writes nothing is D16, log 15.) -/
def Obligations.LastHostWriteToAPlaceWins : Prop :=
  ∀ (os : List HostOp) (s : State), s.status = .idle → s.mem.wf = true → (∀ o ∈ os, o ≠ HostOp.run ∧ o ≠ HostOp.reset) →
    (hostSteps os s).status = .idle ∧
    (∀ r : RegIx, (hostSteps os s).readReg r = lastSetReg r os (s.readReg r)) ∧
    (hostSteps os s).pc = lastSetPc os s.pc ∧
    (∀ a : Nat, (hostSteps os s).mem.readByte a = lastLoadMem a os (s.mem.readByte a))

/-- R185, R26, R38: outside a run Inspect shows every register in its width and loses nothing; during a run it shows
nothing, and `status` is readable always. (The status codes are D7, log 7; the refusal during a run is D16, log 15.) -/
def Obligations.InspectShowsTheWholeStateOutsideARun : Prop :=
  (∀ s : State, (∃ v, inspect s = some v) ↔ s.status ≠ .running) ∧
  (∀ s t : State, s.status ≠ .running → inspect s = inspect t → s = t) ∧
  (∀ (s : State) (v : Inspection), inspect s = some v →
    v.sp.toNat = s.sp.val ∧ v.status = readStatus s ∧ v.pc = s.pc ∧ v.faultValue = s.faultValue) ∧
  (∀ s : State, (readStatus s = 0#2 ↔ s.status = .idle) ∧ (readStatus s = 1#2 ↔ s.status = .running) ∧
    (readStatus s = 2#2 ↔ s.status = .halted) ∧ (readStatus s = 3#2 ↔ s.status = .faulted))

/-- R88, R89: a run stops at the first Halted or Faulted state and stays there; fuel only cuts it short. -/
def Obligations.EndedRunStaysWhereItEnded : Prop :=
  ∀ (n m : Nat) (s : State), (runLoop n s).status ≠ .running →
    runLoop (n + m) s = runLoop n s ∧ (s.status = .running → (runLoop n s).ended = true)

/-! ## The five parts (10_state.md section 10) -/

/-- R31 to R37: the five parts and run control, wired together, are the step (D13, log 16); with `run_en` 0 they do nothing. -/
def Obligations.FivePartsComposeToTheStep : Prop :=
  (∀ s : State, s.status = .running → step s = .next (stepByParts s)) ∧
  (∀ s : State, s.status ≠ .running → stepByParts s = s)

/-- R37, R155: when a fault is asserted the register ports are off, and at most one fault is asserted. (The interfaces are
D13; that nothing is commanded without a valid opcode is log 16.) -/
def Obligations.FaultSignalsExcludeRegisterWritesAndEachOther : Prop :=
  ∀ s : State,
    let f := fetchUnit (runEnable s.status) s.pc s.mem
    let e := aluOfStep s
    let k := controller s.pc s.stack s.sp f.pcAdvance e.cmd
    ((f.fetchFault || e.unsupported || k.stackOverflow || k.stackUnderflow) = true → e.wEn = false ∧ e.fEn = false) ∧
    (f.fetchFault.toNat + e.unsupported.toNat + k.stackOverflow.toNat + k.stackUnderflow.toNat ≤ 1)
end

