-- ==== Sys2Proof/Laws/Decode.lean ====
section
/-! SUPPORT. Laws/Decode.lean: the fields of an opcode in arithmetic, the fields of the encoder's formats, and the decoder by the
class of a word. -/

namespace Sys2Proof

/-! ## Fields in arithmetic (30_encoding.md R62) -/

theorem fieldC_toNat (op : Opcode) : (fieldC op).toNat = op.toNat / 4096 := by
  have := op.isLt
  simp [fieldC, Nat.shiftRight_eq_div_pow]; omega

theorem fieldX_toNat (op : Opcode) : (fieldX op).toNat = op.toNat / 256 % 16 := by
  simp [fieldX, Nat.shiftRight_eq_div_pow]

theorem fieldY_toNat (op : Opcode) : (fieldY op).toNat = op.toNat / 16 % 16 := by
  simp [fieldY, Nat.shiftRight_eq_div_pow]

theorem fieldD_toNat (op : Opcode) : (fieldD op).toNat = op.toNat % 16 := by
  simp [fieldD]

theorem fieldKK_toNat (op : Opcode) : (fieldKK op).toNat = op.toNat % 256 := by
  simp [fieldKK]

theorem fieldAddr_toNat (op : Opcode) : (fieldAddr op).toNat = op.toNat % 4096 := by
  simp [fieldAddr]

theorem packWord_toNat (b0 b1 : Byte) : (packWord b0 b1).toNat = b0.toNat * 256 + b1.toNat := by
  have := b1.isLt
  simp only [packWord, BitVec.toNat_append]
  rw [← Nat.shiftLeft_add_eq_or_of_lt this, Nat.shiftLeft_eq]

theorem highByte_toNat (op : Opcode) : (highByte op).toNat = op.toNat / 256 := by
  have := op.isLt
  simp [highByte, Nat.shiftRight_eq_div_pow]; omega

theorem lowByte_toNat (op : Opcode) : (lowByte op).toNat = op.toNat % 256 := by
  simp [lowByte]

/-- Splitting a word into its bytes and packing them again. -/
theorem packWord_bytes (op : Opcode) : packWord (highByte op) (lowByte op) = op := by
  apply BitVec.eq_of_toNat_eq
  rw [packWord_toNat, highByte_toNat, lowByte_toNat]
  omega

/-! ## The encoder's formats in arithmetic (30_encoding.md R74) -/

theorem formatA_toNat (c : BitVec 4) (a : Target) : (formatA c a).toNat = c.toNat * 4096 + a.toNat := by
  have := a.isLt
  simp only [formatA, BitVec.toNat_append]
  rw [← Nat.shiftLeft_add_eq_or_of_lt this, Nat.shiftLeft_eq]

theorem formatXK_toNat (c x : BitVec 4) (kk : Byte) :
    (formatXK c x kk).toNat = c.toNat * 4096 + x.toNat * 256 + kk.toNat := by
  have h1 := kk.isLt
  have h2 := x.isLt
  simp only [formatXK, BitVec.toNat_append]
  rw [← Nat.shiftLeft_add_eq_or_of_lt h1, ← Nat.shiftLeft_add_eq_or_of_lt h2]
  simp only [Nat.shiftLeft_eq]
  omega

theorem formatXY_toNat (c x y d : BitVec 4) :
    (formatXY c x y d).toNat = c.toNat * 4096 + x.toNat * 256 + y.toNat * 16 + d.toNat := by
  have h1 := d.isLt
  have h2 := x.isLt
  have h3 : (y ++ d).toNat < 2 ^ 8 := (y ++ d).isLt
  simp only [formatXY, BitVec.toNat_append] at *
  rw [← Nat.shiftLeft_add_eq_or_of_lt h3, ← Nat.shiftLeft_add_eq_or_of_lt h1, ← Nat.shiftLeft_add_eq_or_of_lt h2]
  simp only [Nat.shiftLeft_eq]
  omega

/-! ## The fields of an encoded word -/

theorem fieldC_formatA (c : BitVec 4) (a : Target) : fieldC (formatA c a) = c := by
  apply BitVec.eq_of_toNat_eq
  have := a.isLt
  rw [fieldC_toNat, formatA_toNat]; omega

theorem fieldAddr_formatA (c : BitVec 4) (a : Target) : fieldAddr (formatA c a) = a := by
  apply BitVec.eq_of_toNat_eq
  have := a.isLt
  rw [fieldAddr_toNat, formatA_toNat]; omega

theorem fieldC_formatXK (c x : BitVec 4) (kk : Byte) : fieldC (formatXK c x kk) = c := by
  apply BitVec.eq_of_toNat_eq
  have := kk.isLt
  have := x.isLt
  rw [fieldC_toNat, formatXK_toNat]; omega

theorem fieldX_formatXK (c x : BitVec 4) (kk : Byte) : fieldX (formatXK c x kk) = x := by
  apply BitVec.eq_of_toNat_eq
  have := kk.isLt
  have := x.isLt
  rw [fieldX_toNat, formatXK_toNat]; omega

theorem fieldKK_formatXK (c x : BitVec 4) (kk : Byte) : fieldKK (formatXK c x kk) = kk := by
  apply BitVec.eq_of_toNat_eq
  have := kk.isLt
  rw [fieldKK_toNat, formatXK_toNat]; omega

theorem fieldC_formatXY (c x y d : BitVec 4) : fieldC (formatXY c x y d) = c := by
  apply BitVec.eq_of_toNat_eq
  have := x.isLt
  have := y.isLt
  have := d.isLt
  rw [fieldC_toNat, formatXY_toNat]; omega

theorem fieldX_formatXY (c x y d : BitVec 4) : fieldX (formatXY c x y d) = x := by
  apply BitVec.eq_of_toNat_eq
  have := x.isLt
  have := y.isLt
  have := d.isLt
  rw [fieldX_toNat, formatXY_toNat]; omega

theorem fieldY_formatXY (c x y d : BitVec 4) : fieldY (formatXY c x y d) = y := by
  apply BitVec.eq_of_toNat_eq
  have := x.isLt
  have := y.isLt
  have := d.isLt
  rw [fieldY_toNat, formatXY_toNat]; omega

theorem fieldD_formatXY (c x y d : BitVec 4) : fieldD (formatXY c x y d) = d := by
  apply BitVec.eq_of_toNat_eq
  have := x.isLt
  have := y.isLt
  have := d.isLt
  rw [fieldD_toNat, formatXY_toNat]; omega

/-! ## The masks of the opcode table in arithmetic -/

theorem and_FFFF (op : Opcode) : (op &&& 0xFFFF#16) = op := by
  rw [show (0xFFFF#16) = BitVec.allOnes 16 from rfl, BitVec.and_allOnes]

theorem and_F000_toNat (op : Opcode) : (op &&& 0xF000#16).toNat = op.toNat / 4096 * 4096 := by
  have h : op &&& 0xF000#16 = (op >>> 12) <<< 12 := by
    apply BitVec.eq_of_getLsbD_eq; intro i hi
    have : i < 16 := hi
    interval_cases i <;> simp
  rw [h]
  have := op.isLt
  simp [Nat.shiftRight_eq_div_pow, Nat.shiftLeft_eq]; omega

theorem and_F00F_toNat (op : Opcode) : (op &&& 0xF00F#16).toNat = op.toNat / 4096 * 4096 + op.toNat % 16 := by
  have h : op &&& 0xF00F#16 = (op &&& 0xF000#16) ||| (op &&& 0x000F#16) := by
    rw [← BitVec.and_or_distrib_left]; rfl
  have h2 : (op &&& 0x000F#16).toNat = op.toNat % 16 := by
    simp only [BitVec.toNat_and, BitVec.toNat_ofNat]
    exact Nat.and_two_pow_sub_one_eq_mod op.toNat 4
  rw [h, BitVec.toNat_or, h2, and_F000_toNat]
  have : op.toNat / 4096 * 4096 = (op.toNat / 4096) <<< 12 := by rw [Nat.shiftLeft_eq]
  rw [this, ← Nat.shiftLeft_add_eq_or_of_lt (by omega)]

/-! ## The decoder -/

/-- The words of each kind, in arithmetic. -/
def kindArith (k : Kind) (n : Nat) : Prop :=
  match k with
  | .halt => n = 0x0000
  | .clear => n = 0x00E0
  | .ret => n = 0x00EE
  | .jump => n / 4096 = 1
  | .call => n / 4096 = 2
  | .skipEqImm => n / 4096 = 3
  | .skipNeqImm => n / 4096 = 4
  | .skipEqReg => n / 4096 = 5 ∧ n % 16 = 0
  | .loadImm => n / 4096 = 6
  | .addImm => n / 4096 = 7
  | .loadReg => n / 4096 = 8 ∧ n % 16 = 0
  | .orReg => n / 4096 = 8 ∧ n % 16 = 1
  | .andReg => n / 4096 = 8 ∧ n % 16 = 2
  | .xorReg => n / 4096 = 8 ∧ n % 16 = 3
  | .addReg => n / 4096 = 8 ∧ n % 16 = 4
  | .unsupported =>
      (n / 4096 = 0 ∧ n ≠ 0x0000 ∧ n ≠ 0x00E0 ∧ n ≠ 0x00EE) ∨ (n / 4096 = 5 ∧ n % 16 ≠ 0) ∨
      (n / 4096 = 8 ∧ 4 < n % 16) ∨ 8 < n / 4096

/-- A word lies in the arithmetic range of its kind. -/
theorem kindOf_arith (op : Opcode) : kindArith (kindOf op) op.toNat := by
  have hC := fieldC_toNat op
  have hD := fieldD_toNat op
  have eqNat : ∀ c : Opcode, op = c ↔ op.toNat = c.toNat := fun c => BitVec.toNat_inj.symm
  have eqD : ∀ c : BitVec 4, fieldD op = c ↔ (fieldD op).toNat = c.toNat := fun c => BitVec.toNat_inj.symm
  simp only [kindOf, eqNat, eqD, hC, hD, BitVec.toNat_ofNat]
  split
  all_goals (try split_ifs) <;> (try split) <;> simp_all [kindArith] <;> omega

/-- The ranges exclude one another, so a word in the range of a kind has that kind. -/
theorem kindOf_of_arith {op : Opcode} {k : Kind} (h : kindArith k op.toNat) : kindOf op = k := by
  have h' := kindOf_arith op
  generalize kindOf op = k' at h'
  cases k <;> cases k' <;> first | rfl | (simp only [kindArith] at h h'; omega)

theorem kindOf_eq_iff (op : Opcode) (k : Kind) : kindOf op = k ↔ kindArith k op.toNat :=
  ⟨fun h => h ▸ kindOf_arith op, kindOf_of_arith⟩

/-- A rejection of a word carries the whole word, and comes exactly from kind UNSUPPORTED (R71). -/
theorem decodeWord_error {op : Opcode} {r : DecodeReject} (h : decodeWord op = .error r) :
    kindOf op = .unsupported ∧ r = .unsupportedOpcode op := by
  unfold decodeWord at h
  split at h <;> simp_all

theorem decodeWord_of_unsupported {op : Opcode} (h : kindOf op = .unsupported) :
    decodeWord op = .error (.unsupportedOpcode op) := by
  simp [decodeWord, h]

/-- The instruction read from a word has the word's kind. -/
theorem kind_of_decodeWord {op : Opcode} {i : Instr} (h : decodeWord op = .ok i) : i.kind = kindOf op := by
  unfold decodeWord at h
  split at h <;> simp_all <;> subst h <;> rfl

/-- A word whose kind is an instruction's decodes. -/
theorem decodeWord_ok_of_kind {op : Opcode} (h : kindOf op ≠ .unsupported) : ∃ i, decodeWord op = .ok i := by
  unfold decodeWord
  split <;> simp_all

end Sys2Proof
end

