-- ==== Sys2Proof/Laws/Memory.lean ====
section
/-! SUPPORT. Laws/Memory.lean: read after write, and that every memory operation keeps the canonical form (Memory.wf). -/

namespace Sys2Proof.Machine

/-- In a canonical list nothing below its lower bound is listed. -/
theorem readByte_below {m : Memory} : ∀ {lo a : Nat}, Memory.wfFrom lo m = true → a < lo →
    m.readByte a = Config.unlistedByte := by
  induction m with
  | nil => intro lo a _ _; rfl
  | cons c rest ih =>
    obtain ⟨b, w⟩ := c
    intro lo a h ha
    simp only [Memory.wfFrom, Bool.and_eq_true, decide_eq_true_eq] at h
    have hne : a ≠ b := by omega
    simp only [Memory.readByte, hne, if_false]
    exact ih h.2 (by omega)

/-- A lower bound may be lowered. -/
theorem wfFrom_mono {m : Memory} {lo lo' : Nat} (hle : lo' ≤ lo) (h : Memory.wfFrom lo m = true) :
    Memory.wfFrom lo' m = true := by
  cases m with
  | nil => rfl
  | cons c rest =>
    obtain ⟨b, w⟩ := c
    simp only [Memory.wfFrom, Bool.and_eq_true, decide_eq_true_eq] at h ⊢
    exact ⟨⟨⟨by omega, h.1.1.2⟩, h.1.2⟩, h.2⟩

/-- Read after write from a canonical list, for every address. -/
theorem readByte_writeByte_from {m : Memory} : ∀ {lo : Nat} (a : Nat) (v : Byte) (b : Nat),
    Memory.wfFrom lo m = true →
    (m.writeByte a v).readByte b = if b = a then v else m.readByte b := by
  induction m with
  | nil =>
    intro lo a v b _
    by_cases hv : v = Config.unlistedByte <;> simp [Memory.writeByte, Memory.readByte, hv]
  | cons c rest ih =>
    obtain ⟨d, w⟩ := c
    intro lo a v b h
    simp only [Memory.wfFrom, Bool.and_eq_true, decide_eq_true_eq] at h
    have hbelow : ∀ e, e ≤ d → Memory.readByte rest e = Config.unlistedByte :=
      fun e he => readByte_below h.2 (by omega)
    simp only [Memory.writeByte]
    by_cases had : a = d
    · subst had
      by_cases hv : v = Config.unlistedByte
      · by_cases hb : b = a <;> simp [Memory.readByte, hv, hb, hbelow]
      · by_cases hb : b = a <;> simp [Memory.readByte, hv, hb]
    · by_cases hlt : a < d
      · by_cases hv : v = Config.unlistedByte
        · by_cases hb : b = a
          · subst hb
            simp [Memory.readByte, hv, had, hlt, hbelow b (by omega)]
          · simp [hv, had, hlt, hb]
        · by_cases hb : b = a <;> simp [Memory.readByte, hv, had, hlt, hb]
      · simp only [had, hlt, if_false, Memory.readByte, ih a v b h.2]
        by_cases hbd : b = d
        · have hba : b ≠ a := by omega
          simp [hbd, Ne.symm had]
        · simp [hbd]

/-- A write inside memory keeps the form. -/
theorem wfFrom_writeByte {m : Memory} : ∀ {lo a : Nat} (v : Byte), lo ≤ a → a < Config.memSize →
    Memory.wfFrom lo m = true → Memory.wfFrom lo (m.writeByte a v) = true := by
  induction m with
  | nil =>
    intro lo a v hlo ha _
    by_cases hv : v = Config.unlistedByte
    · simp [Memory.writeByte, hv, Memory.wfFrom]
    · simp only [Memory.writeByte, hv, if_false, Memory.wfFrom, Bool.and_true, Bool.and_eq_true, decide_eq_true_eq]
      exact ⟨⟨hlo, ha⟩, by simp [hv]⟩
  | cons c rest ih =>
    obtain ⟨d, w⟩ := c
    intro lo a v hlo ha h
    have h' := h
    simp only [Memory.wfFrom, Bool.and_eq_true, decide_eq_true_eq] at h
    simp only [Memory.writeByte]
    split_ifs with had hv hlt hv
    · exact wfFrom_mono (by omega) h.2
    · simp only [Memory.wfFrom, Bool.and_eq_true, decide_eq_true_eq]
      exact ⟨⟨⟨hlo, ha⟩, by simp [hv]⟩, by rw [had]; exact h.2⟩
    · exact h'
    · simp only [Memory.wfFrom, Bool.and_eq_true, decide_eq_true_eq]
      exact ⟨⟨⟨hlo, ha⟩, by simp [hv]⟩, ⟨⟨by omega, h.1.1.2⟩, h.1.2⟩, h.2⟩
    · simp only [Memory.wfFrom, Bool.and_eq_true, decide_eq_true_eq]
      exact ⟨h.1, ih v (by omega) ha h.2⟩

/-- Read after write (20_memory.md R55). -/
theorem readByte_writeByte {m : Memory} (h : m.wf = true) (a : Nat) (v : Byte) (b : Nat) :
    (m.writeByte a v).readByte b = if b = a then v else m.readByte b :=
  readByte_writeByte_from a v b h

theorem wf_writeByte {m : Memory} (h : m.wf = true) {a : Nat} (v : Byte) (ha : a < Config.memSize) :
    (m.writeByte a v).wf = true :=
  wfFrom_writeByte v (Nat.zero_le a) ha h

theorem wf_writeWord {m : Memory} (h : m.wf = true) {a : Nat} (op : Opcode) (ha : a ≤ Config.lastFetch) :
    (m.writeWord a op).wf = true := by
  have h0 : a < Config.memSize := by simp only [Config.lastFetch, Config.memSize] at *; omega
  have h1 : a + 1 < Config.memSize := by simp only [Config.lastFetch, Config.memSize] at *; omega
  exact wf_writeByte (wf_writeByte h _ h0) _ h1

theorem readByte_writeWord {m : Memory} (h : m.wf = true) {a : Nat} (op : Opcode) (ha : a ≤ Config.lastFetch) (b : Nat) :
    (m.writeWord a op).readByte b =
      if b = a + 1 then lowByte op else if b = a then highByte op else m.readByte b := by
  have h0 : a < Config.memSize := by simp only [Config.lastFetch, Config.memSize] at *; omega
  rw [Memory.writeWord, readByte_writeByte (wf_writeByte h _ h0), readByte_writeByte h]

theorem fetchableAddr_le (pc : Addr) : (fetchableAddr pc).toNat ≤ Config.lastFetch := by
  unfold fetchableAddr
  split
  · assumption
  · decide

end Sys2Proof.Machine
end

