-- ==== Sys2Proof/Laws/State.lean ====
section
/-! SUPPORT. Laws/State.lean: for each update of State what it does to each field, and the read-after-write law of the
register file. Later proofs cite these and unfold no record update. -/

namespace Sys2Proof.Machine

/-! ## writeReg -/

@[simp] theorem writeReg_mem (s : State) (x : RegIx) (v : Byte) : (s.writeReg x v).mem = s.mem := rfl
@[simp] theorem writeReg_pc (s : State) (x : RegIx) (v : Byte) : (s.writeReg x v).pc = s.pc := rfl
@[simp] theorem writeReg_stack (s : State) (x : RegIx) (v : Byte) : (s.writeReg x v).stack = s.stack := rfl
@[simp] theorem writeReg_sp (s : State) (x : RegIx) (v : Byte) : (s.writeReg x v).sp = s.sp := rfl
@[simp] theorem writeReg_status (s : State) (x : RegIx) (v : Byte) : (s.writeReg x v).status = s.status := rfl
@[simp] theorem writeReg_faultCause (s : State) (x : RegIx) (v : Byte) :
    (s.writeReg x v).faultCause = s.faultCause := rfl
@[simp] theorem writeReg_faultValue (s : State) (x : RegIx) (v : Byte) :
    (s.writeReg x v).faultValue = s.faultValue := rfl

/-- Read after write, over all 16 registers (10_state.md R17: none is hardwired). -/
theorem readReg_writeReg (s : State) (x r : RegIx) (v : Byte) :
    (s.writeReg x v).readReg r = if r = x then v else s.readReg r := by
  unfold State.readReg State.writeReg
  simp only [Vector.getElem_set]
  by_cases h : r = x
  · simp [h]
  · have hne : x.toNat ≠ r.toNat := fun e => h (BitVec.eq_of_toNat_eq e.symm)
    simp [h, hne]

@[simp] theorem readReg_writeReg_self (s : State) (x : RegIx) (v : Byte) : (s.writeReg x v).readReg x = v := by
  simp [readReg_writeReg]

theorem readReg_writeReg_of_ne (s : State) {x r : RegIx} (v : Byte) (h : r ≠ x) :
    (s.writeReg x v).readReg r = s.readReg r := by
  simp [readReg_writeReg, h]

/-- Two states with the same fields and the same register reads are the same. -/
theorem State.ext_of_reads {s t : State} (hm : s.mem = t.mem) (hp : s.pc = t.pc)
    (hr : ∀ r, s.readReg r = t.readReg r) (hk : s.stack = t.stack) (hs : s.sp = t.sp)
    (ht : s.status = t.status) (hc : s.faultCause = t.faultCause) (hv : s.faultValue = t.faultValue) : s = t := by
  have hregs : s.regs = t.regs := by
    apply Vector.ext
    intro n hn
    have h := hr (BitVec.ofNat 4 n)
    have hmod : n % 16 = n := Nat.mod_eq_of_lt hn
    simpa [State.readReg, hmod] using h
  obtain ⟨m, p, r, k, q, u, c, v⟩ := s
  obtain ⟨m', p', r', k', q', u', c', v'⟩ := t
  simp_all

theorem writeReg_comm (s : State) {x y : RegIx} (v w : Byte) (h : x ≠ y) :
    (s.writeReg x v).writeReg y w = (s.writeReg y w).writeReg x v := by
  refine State.ext_of_reads rfl rfl (fun r => ?_) rfl rfl rfl rfl rfl
  simp only [readReg_writeReg]
  split_ifs with h1 h2
  · exact absurd (h2.symm.trans h1) h
  all_goals rfl

theorem writeReg_writeReg (s : State) (x : RegIx) (v w : Byte) :
    (s.writeReg x v).writeReg x w = s.writeReg x w := by
  refine State.ext_of_reads rfl rfl (fun r => ?_) rfl rfl rfl rfl rfl
  simp only [readReg_writeReg]
  split_ifs <;> rfl

/-! ## writeFlag -/

@[simp] theorem writeFlag_mem (s : State) (b : Bool) : (s.writeFlag b).mem = s.mem := rfl
@[simp] theorem writeFlag_pc (s : State) (b : Bool) : (s.writeFlag b).pc = s.pc := rfl
@[simp] theorem writeFlag_stack (s : State) (b : Bool) : (s.writeFlag b).stack = s.stack := rfl
@[simp] theorem writeFlag_sp (s : State) (b : Bool) : (s.writeFlag b).sp = s.sp := rfl
@[simp] theorem writeFlag_status (s : State) (b : Bool) : (s.writeFlag b).status = s.status := rfl
@[simp] theorem writeFlag_faultCause (s : State) (b : Bool) : (s.writeFlag b).faultCause = s.faultCause := rfl
@[simp] theorem writeFlag_faultValue (s : State) (b : Bool) : (s.writeFlag b).faultValue = s.faultValue := rfl

theorem readReg_writeFlag (s : State) (b : Bool) (r : RegIx) :
    (s.writeFlag b).readReg r = if r = 0xF#4 then flagByte b else s.readReg r :=
  readReg_writeReg s 0xF#4 r (flagByte b)

/-! ## setPc and bumpPc -/

@[simp] theorem setPc_mem (s : State) (a : Addr) : (s.setPc a).mem = s.mem := rfl
@[simp] theorem setPc_pc (s : State) (a : Addr) : (s.setPc a).pc = a := rfl
@[simp] theorem setPc_readReg (s : State) (a : Addr) (r : RegIx) : (s.setPc a).readReg r = s.readReg r := rfl
@[simp] theorem setPc_stack (s : State) (a : Addr) : (s.setPc a).stack = s.stack := rfl
@[simp] theorem setPc_sp (s : State) (a : Addr) : (s.setPc a).sp = s.sp := rfl
@[simp] theorem setPc_status (s : State) (a : Addr) : (s.setPc a).status = s.status := rfl
@[simp] theorem setPc_faultCause (s : State) (a : Addr) : (s.setPc a).faultCause = s.faultCause := rfl
@[simp] theorem setPc_faultValue (s : State) (a : Addr) : (s.setPc a).faultValue = s.faultValue := rfl
theorem setPc_writeReg (s : State) (x : RegIx) (v : Byte) (a : Addr) :
    (s.writeReg x v).setPc a = (s.setPc a).writeReg x v := rfl

@[simp] theorem bumpPc_mem (s : State) : s.bumpPc.mem = s.mem := rfl
@[simp] theorem bumpPc_pc (s : State) : s.bumpPc.pc = s.pc + 2#16 := rfl
@[simp] theorem bumpPc_readReg (s : State) (r : RegIx) : s.bumpPc.readReg r = s.readReg r := rfl
@[simp] theorem bumpPc_stack (s : State) : s.bumpPc.stack = s.stack := rfl
@[simp] theorem bumpPc_sp (s : State) : s.bumpPc.sp = s.sp := rfl
@[simp] theorem bumpPc_status (s : State) : s.bumpPc.status = s.status := rfl
@[simp] theorem bumpPc_faultCause (s : State) : s.bumpPc.faultCause = s.faultCause := rfl
@[simp] theorem bumpPc_faultValue (s : State) : s.bumpPc.faultValue = s.faultValue := rfl

/-! ## raise and halt -/

@[simp] theorem raise_mem (f : Fatal) (s : State) : (raise f s).mem = s.mem := rfl
@[simp] theorem raise_pc (f : Fatal) (s : State) : (raise f s).pc = s.pc := rfl
@[simp] theorem raise_readReg (f : Fatal) (s : State) (r : RegIx) : (raise f s).readReg r = s.readReg r := rfl
@[simp] theorem raise_stack (f : Fatal) (s : State) : (raise f s).stack = s.stack := rfl
@[simp] theorem raise_sp (f : Fatal) (s : State) : (raise f s).sp = s.sp := rfl
@[simp] theorem raise_status (f : Fatal) (s : State) : (raise f s).status = .faulted := rfl
@[simp] theorem raise_faultCause (f : Fatal) (s : State) : (raise f s).faultCause = f.cause := rfl
@[simp] theorem raise_faultValue (f : Fatal) (s : State) : (raise f s).faultValue = f.value := rfl

@[simp] theorem halt_mem (s : State) : (halt s).mem = s.mem := rfl
@[simp] theorem halt_pc (s : State) : (halt s).pc = s.pc := rfl
@[simp] theorem halt_readReg (s : State) (r : RegIx) : (halt s).readReg r = s.readReg r := rfl
@[simp] theorem halt_stack (s : State) : (halt s).stack = s.stack := rfl
@[simp] theorem halt_sp (s : State) : (halt s).sp = s.sp := rfl
@[simp] theorem halt_status (s : State) : (halt s).status = .halted := rfl
@[simp] theorem halt_faultCause (s : State) : (halt s).faultCause = s.faultCause := rfl
@[simp] theorem halt_faultValue (s : State) : (halt s).faultValue = s.faultValue := rfl

end Sys2Proof.Machine
end

