-- ==== Sys2Proof/Laws/Ops.lean ====
section
/-! SUPPORT. Laws/Ops.lean: for each shared operation, everything it can do, said once. -/

namespace Sys2Proof.Machine

/-! ## The fetch (20_memory.md R44; 40_fetch_and_step.md R82, R83) -/

/-- A fetch that gives a word was made at `pc <= 0x0FFE` and gives the two bytes there. -/
theorem fetch_ok {s : State} {op : Opcode} (h : fetch s = .ok op) :
    s.pc.toNat ≤ 0x0FFE ∧ op = packWord (s.mem.readByte s.pc.toNat) (s.mem.readByte (s.pc.toNat + 1)) := by
  unfold fetch memRead2 at h
  split_ifs at h with h1 h2
  exact ⟨by omega, (Except.ok.inj h).symm⟩

/-- A fetch at `pc <= 0x0FFE` gives the two bytes there. -/
theorem fetch_of_le {s : State} (h : s.pc.toNat ≤ 0x0FFE) :
    fetch s = .ok (packWord (s.mem.readByte s.pc.toNat) (s.mem.readByte (s.pc.toNat + 1))) := by
  have h1 : ¬ 0x0FFF < s.pc.toNat := by omega
  have h2 : ¬ s.pc.toNat = 0x0FFF := by omega
  simp [fetch, memRead2, h1, h2]

/-- A fetch that fails was made above 0x0FFE and reports the lowest out-of-range address. -/
theorem fetch_error {s : State} {f : Fatal} (h : fetch s = .error f) :
    0x0FFE < s.pc.toNat ∧ f = .memoryOutOfBounds (if 0x0FFF < s.pc.toNat then s.pc else 0x1000#16) := by
  unfold fetch memRead2 at h
  split_ifs at h with h1 h2
  · exact ⟨by omega, by simpa [h1] using (Except.error.inj h).symm⟩
  · exact ⟨by omega, by simpa [h1] using (Except.error.inj h).symm⟩

/-- The advance of a fetched instruction is exact. -/
theorem bump_toNat {a : Addr} (h : a.toNat ≤ 0x1000) : (a + 2#16).toNat = a.toNat + 2 := by
  simp only [BitVec.toNat_add, BitVec.toNat_ofNat]; omega

/-! ## The stack controller (42_control_flow.md R114) -/

/-- What a push that succeeds does. -/
theorem push_ok {v : Addr} {s t : State} (h : push v s = .ok t) :
    ∃ hk : s.sp.val < 16, t = { s with stack := s.stack.set s.sp.val v hk, sp := ⟨s.sp.val + 1, by omega⟩ } := by
  unfold push at h
  split_ifs at h with hk
  exact ⟨hk, (Except.ok.inj h).symm⟩

/-- A push fails exactly on a full stack, with StackOverflow. -/
theorem push_error {v : Addr} {s : State} {f : Fatal} (h : push v s = .error f) :
    s.sp.val = 16 ∧ f = .stackOverflow := by
  unfold push at h
  split_ifs at h with hk
  exact ⟨by have := s.sp.isLt; omega, (Except.error.inj h).symm⟩

/-- What a pop that succeeds does. -/
theorem pop_ok {s t : State} {a : Addr} (h : pop s = .ok (a, t)) :
    ∃ hk : 0 < s.sp.val, a = s.stack[s.sp.val - 1]'(by omega) ∧ t = { s with sp := ⟨s.sp.val - 1, by omega⟩ } := by
  unfold pop at h
  split_ifs at h with hk
  have := Except.ok.inj h
  exact ⟨hk, (congrArg Prod.fst this).symm, (congrArg Prod.snd this).symm⟩

/-- A pop fails exactly on an empty stack, with StackUnderflow. -/
theorem pop_error {s : State} {f : Fatal} (h : pop s = .error f) : s.sp.val = 0 ∧ f = .stackUnderflow := by
  unfold pop at h
  split_ifs at h with hk
  exact ⟨by omega, (Except.error.inj h).symm⟩

/-! ## The adder (44_alu.md R137) -/

theorem sum9_toNat (a b : Byte) : (sum9 a b).toNat = a.toNat + b.toNat := by
  have := a.isLt
  have := b.isLt
  simp only [sum9, BitVec.toNat_add, BitVec.toNat_setWidth]; omega

theorem sumLow_toNat (a b : Byte) : (sumLow a b).toNat = (a.toNat + b.toNat) % 256 := by
  simp [sumLow, sum9_toNat]

theorem sumCarry_iff (a b : Byte) : sumCarry a b = true ↔ 255 < a.toNat + b.toNat := by
  have h := sum9_toNat a b
  have := a.isLt
  have := b.isLt
  rw [sumCarry, BitVec.getLsbD, Nat.testBit_eq_decide_div_mod_eq, h]
  simp only [decide_eq_true_eq]
  omega

end Sys2Proof.Machine
end

