-- ==== Sys2Proof/Laws/Exec.lean ====
section
/-! SUPPORT. Laws/Exec.lean: what each meaning can do, and what a step can do, said once; later proofs cite these instead of
unfolding `exec` and `step`. -/

namespace Sys2Proof.Machine

/-- RETURN: the pop, or the underflow (42_control_flow.md R110). -/
theorem execRet_cases (s : State) :
    (∃ hk : 0 < s.sp.val,
      execRet s = .next { s with pc := s.stack[s.sp.val - 1]'(by omega), sp := ⟨s.sp.val - 1, by omega⟩ }) ∨
    (s.sp.val = 0 ∧ execRet s = .next (raise .stackUnderflow s)) := by
  by_cases hk : 0 < s.sp.val
  · exact .inl ⟨hk, by simp [execRet, pop, hk, orRaise, Except.map, State.setPc]⟩
  · exact .inr ⟨by omega, by simp [execRet, pop, hk, orRaise, Except.map]⟩

/-- CALL: the push, or the overflow (42_control_flow.md R112). -/
theorem execCall_cases (a : Target) (s : State) :
    (∃ hk : s.sp.val < 16,
      execCall a s = .next { s with
        pc := targetAddr a, stack := s.stack.set s.sp.val s.pc hk, sp := ⟨s.sp.val + 1, by omega⟩ }) ∨
    (s.sp.val = 16 ∧ execCall a s = .next (raise .stackOverflow s)) := by
  by_cases hk : s.sp.val < 16
  · exact .inl ⟨hk, by simp [execCall, push, hk, orRaise, Except.map, State.setPc]⟩
  · exact .inr ⟨by have := s.sp.isLt; omega, by simp [execCall, push, hk, orRaise, Except.map]⟩

/-- Everything an instruction can do: it answers a next state that differs from `s` in `pc` alone, in one register and
then perhaps the flag, in the stack by one push or one pop, or in the run's end. -/
theorem exec_cases (i : Instr) (s : State) :
    (∃ p, exec i s = .next (s.setPc p) ∧
      (i.kind = .clear ∧ p = s.pc ∨ (∃ a, i = .jump a ∧ p = targetAddr a) ∨
       (i.kind = .skipEqImm ∨ i.kind = .skipNeqImm ∨ i.kind = .skipEqReg) ∧ (p = s.pc ∨ p = s.pc + 2#16))) ∨
    (∃ x v, exec i s = .next (s.writeReg x v) ∧ regsWritten i = [x] ∧
      i.kind ∈ [Kind.loadImm, .addImm, .loadReg, .orReg, .andReg, .xorReg]) ∨
    (∃ x y, i = .addReg x y ∧ exec i s = .next ((s.writeReg x (sumLow (s.readReg x) (s.readReg y))).writeFlag
      (sumCarry (s.readReg x) (s.readReg y)))) ∨
    (i = .halt ∧ exec i s = .next (halt s)) ∨
    (∃ hk : 0 < s.sp.val, i = .ret ∧
      exec i s = .next { s with pc := s.stack[s.sp.val - 1]'(by omega), sp := ⟨s.sp.val - 1, by omega⟩ }) ∨
    (∃ (a : Target) (hk : s.sp.val < 16), i = .call a ∧
      exec i s = .next { s with
        pc := targetAddr a, stack := s.stack.set s.sp.val s.pc hk, sp := ⟨s.sp.val + 1, by omega⟩ }) ∨
    (i = .ret ∧ s.sp.val = 0 ∧ exec i s = .next (raise .stackUnderflow s)) ∨
    (∃ a, i = .call a ∧ s.sp.val = 16 ∧ exec i s = .next (raise .stackOverflow s)) := by
  cases i with
  | halt => exact .inr (.inr (.inr (.inl ⟨rfl, rfl⟩)))
  | clear => exact .inl ⟨s.pc, rfl, .inl ⟨rfl, rfl⟩⟩
  | ret =>
    rcases execRet_cases s with ⟨hk, h⟩ | ⟨h0, h⟩
    · exact .inr (.inr (.inr (.inr (.inl ⟨hk, rfl, h⟩))))
    · exact .inr (.inr (.inr (.inr (.inr (.inr (.inl ⟨rfl, h0, h⟩))))))
  | jump a => exact .inl ⟨_, rfl, .inr (.inl ⟨a, rfl, rfl⟩)⟩
  | call a =>
    rcases execCall_cases a s with ⟨hk, h⟩ | ⟨h0, h⟩
    · exact .inr (.inr (.inr (.inr (.inr (.inl ⟨a, hk, rfl, h⟩)))))
    · exact .inr (.inr (.inr (.inr (.inr (.inr (.inr ⟨a, rfl, h0, h⟩))))))
  | skipEqImm x kk =>
    by_cases h : s.readReg x = kk
    · exact .inl ⟨s.pc + 2#16, by simp [exec, execSkipEqImm, skipIf, h, State.bumpPc], .inr (.inr ⟨by simp [Instr.kind], .inr rfl⟩)⟩
    · exact .inl ⟨s.pc, by simp [exec, execSkipEqImm, skipIf, h, State.setPc], .inr (.inr ⟨by simp [Instr.kind], .inl rfl⟩)⟩
  | skipNeqImm x kk =>
    by_cases h : s.readReg x = kk
    · exact .inl ⟨s.pc, by simp [exec, execSkipNeqImm, skipIf, h, State.setPc], .inr (.inr ⟨by simp [Instr.kind], .inl rfl⟩)⟩
    · exact .inl ⟨s.pc + 2#16, by simp [exec, execSkipNeqImm, skipIf, h, State.bumpPc], .inr (.inr ⟨by simp [Instr.kind], .inr rfl⟩)⟩
  | skipEqReg x y =>
    by_cases h : s.readReg x = s.readReg y
    · exact .inl ⟨s.pc + 2#16, by simp [exec, execSkipEqReg, skipIf, h, State.bumpPc], .inr (.inr ⟨by simp [Instr.kind], .inr rfl⟩)⟩
    · exact .inl ⟨s.pc, by simp [exec, execSkipEqReg, skipIf, h, State.setPc], .inr (.inr ⟨by simp [Instr.kind], .inl rfl⟩)⟩
  | loadImm x kk => exact .inr (.inl ⟨x, _, rfl, rfl, by simp [Instr.kind]⟩)
  | addImm x kk => exact .inr (.inl ⟨x, _, rfl, rfl, by simp [Instr.kind]⟩)
  | loadReg x y => exact .inr (.inl ⟨x, _, rfl, rfl, by simp [Instr.kind]⟩)
  | orReg x y => exact .inr (.inl ⟨x, _, rfl, rfl, by simp [Instr.kind]⟩)
  | andReg x y => exact .inr (.inl ⟨x, _, rfl, rfl, by simp [Instr.kind]⟩)
  | xorReg x y => exact .inr (.inl ⟨x, _, rfl, rfl, by simp [Instr.kind]⟩)
  | addReg x y => exact .inr (.inr (.inl ⟨x, y, rfl, rfl⟩))

/-- Everything a step can do (40_fetch_and_step.md R80): the fetch fails, the word is unsupported, or its instruction
executes in the advanced state. -/
theorem step_cases {s t : State} (h : step s = .next t) :
    s.status = .running ∧
    ((∃ f, fetch s = .error f ∧ t = raise f s) ∨
     ∃ op, fetch s = .ok op ∧
      ((kindOf op = .unsupported ∧ t = raise (.unsupportedOpcode op) s.bumpPc) ∨
       ∃ i, decodeWord op = .ok i ∧ i.kind = kindOf op ∧ exec i s.bumpPc = .next t)) := by
  unfold step at h
  split at h
  case h_2 => exact absurd h (by simp)
  case h_1 hrun =>
    refine ⟨hrun, ?_⟩
    split at h
    case h_2 f hf => exact .inl ⟨f, hf, (Host.Outcome.next.inj h).symm⟩
    case h_1 op hop =>
      refine .inr ⟨op, hop, ?_⟩
      unfold dispatch at h
      split at h
      case h_1 i hi => exact .inr ⟨i, hi, kind_of_decodeWord hi, h⟩
      case h_2 r hr => exact .inl ⟨(decodeWord_error hr).1, (Host.Outcome.next.inj h).symm⟩

/-- A running core whose fetch gives a supported word executes it in the advanced state. -/
theorem step_of_decoded {s : State} {op : Opcode} {i : Instr} (hrun : s.status = .running) (hop : fetch s = .ok op)
    (hi : decodeWord op = .ok i) : step s = exec i s.bumpPc := by
  simp [step, hrun, hop, dispatch, hi]

/-- A running core whose fetch gives an unsupported word raises UnsupportedOpcode in the advanced state. -/
theorem step_of_unsupported {s : State} {op : Opcode} (hrun : s.status = .running) (hop : fetch s = .ok op)
    (hk : kindOf op = .unsupported) : step s = .next (raise (.unsupportedOpcode op) s.bumpPc) := by
  simp [step, hrun, hop, dispatch, decodeWord_of_unsupported hk]

/-- A running core whose fetch fails raises the fetch's fault where it stands. -/
theorem step_of_fetch_error {s : State} {f : Fatal} (hrun : s.status = .running) (hf : fetch s = .error f) :
    step s = .next (raise f s) := by
  simp [step, hrun, hf]

end Sys2Proof.Machine
end

