-- ==== Sys2Proof/Laws/Parts.lean ====
section
/-! SUPPORT. Laws/Parts.lean: what the parts drive, said once per part (spec/10_state.md R32, R34, R35). -/

namespace Sys2Proof.Machine

/-- With `run_en` 0 fetch_unit does nothing (R32). -/
theorem fetchUnit_off (pc : Addr) (m : Memory) : fetchUnit false pc m = FetchOut.off := rfl

/-- The two addresses of a fetch inside memory name `pc` and `pc + 1` in 12 bits, without a wrap (R32). -/
theorem memData_fetch {pc : Addr} (m : Memory) (h : pc.toNat ≤ 0x0FFE) :
    memData m (pc.extractLsb' 0 12) = m.readByte pc.toNat ∧
    memData m (pc.extractLsb' 0 12 + 1#12) = m.readByte (pc.toNat + 1) := by
  have h0 : (pc.extractLsb' 0 12).toNat = pc.toNat := by simp; omega
  refine ⟨by rw [memData, h0], ?_⟩
  rw [memData, BitVec.toNat_add, h0, BitVec.toNat_ofNat]
  congr 1
  omega

/-- With `run_en` 1 and `pc` at or below 0x0FFE fetch_unit hands on the two bytes at `pc` and asks for the advance. -/
theorem fetchUnit_fetches {pc : Addr} (m : Memory) (h : pc.toNat ≤ 0x0FFE) :
    fetchUnit true pc m =
      { memAddr0 := some (pc.extractLsb' 0 12), memAddr1 := some (pc.extractLsb' 0 12 + 1#12),
        opcode := some (packWord (m.readByte pc.toNat) (m.readByte (pc.toNat + 1))),
        opcodeValid := true, pcAdvance := true, fetchFault := false, fetchFaultAddr := some 0x1000#16 } := by
  have h1 : ¬ 0x0FFF < pc.toNat := by omega
  simp [fetchUnit, fetchOk, h, h1, memData_fetch m h]

/-- With `run_en` 1 and `pc` above 0x0FFE fetch_unit drives no address and no opcode and asserts its fault. -/
theorem fetchUnit_faults {pc : Addr} (m : Memory) (h : 0x0FFE < pc.toNat) :
    fetchUnit true pc m =
      { FetchOut.off with
        fetchFault := true, fetchFaultAddr := some (if 0x0FFF < pc.toNat then pc else 0x1000#16) } := by
  have h1 : ¬ pc.toNat ≤ 0x0FFE := by omega
  simp [fetchUnit, fetchOk, FetchOut.off, h1]

/-- With both enables 0 the register_file reads neither `w_data` nor `f_bit`: what they carry has no effect (log 26). -/
theorem regFile_disabled (v : Vector Byte 16) (x : RegIx) (w : Byte) (b : Bool) : regFile v false x w false b = v := rfl

/-- With `f_en` 0 the register_file does not read `f_bit` (log 26). -/
theorem regFile_flag_disabled (v : Vector Byte 16) (x : RegIx) (w : Byte) (b : Bool) :
    regFile v true x w false b = v.set x.toNat w x.isLt := rfl

end Sys2Proof.Machine
end

