-- ==== Sys2Proof/Laws/PerInstr.lean ====
section
/-! SUPPORT. Laws/PerInstr.lean: the family EncodeRow, one lemma per instruction: the kind of an encoded instruction's word is
the instruction's own (spec/30_encoding.md R65, R66, R74). -/

namespace Sys2Proof.Laws.EncodeRow

/-- The word of an instruction belongs to the instruction's row of the opcode table. -/
def Statement (i : Instr) : Prop := kindOf (encode i) = i.kind

theorem halt : Statement .halt := by simp [Statement, Instr.kind]; decide
theorem clear : Statement .clear := by simp [Statement, Instr.kind]; decide
theorem ret : Statement .ret := by simp [Statement, Instr.kind]; decide

theorem jump (addr : Target) : Statement (.jump addr) := by
  simp [Statement, Instr.kind, kindOf, encode, fieldC_formatA]

theorem call (addr : Target) : Statement (.call addr) := by
  simp [Statement, Instr.kind, kindOf, encode, fieldC_formatA]

theorem skipEqImm (x : RegIx) (kk : Byte) : Statement (.skipEqImm x kk) := by
  simp [Statement, Instr.kind, kindOf, encode, fieldC_formatXK]

theorem skipNeqImm (x : RegIx) (kk : Byte) : Statement (.skipNeqImm x kk) := by
  simp [Statement, Instr.kind, kindOf, encode, fieldC_formatXK]

theorem skipEqReg (x y : RegIx) : Statement (.skipEqReg x y) := by
  simp [Statement, Instr.kind, kindOf, encode, fieldC_formatXY, fieldD_formatXY]

theorem loadImm (x : RegIx) (kk : Byte) : Statement (.loadImm x kk) := by
  simp [Statement, Instr.kind, kindOf, encode, fieldC_formatXK]

theorem addImm (x : RegIx) (kk : Byte) : Statement (.addImm x kk) := by
  simp [Statement, Instr.kind, kindOf, encode, fieldC_formatXK]

theorem loadReg (x y : RegIx) : Statement (.loadReg x y) := by
  simp [Statement, Instr.kind, kindOf, encode, fieldC_formatXY, fieldD_formatXY]

theorem orReg (x y : RegIx) : Statement (.orReg x y) := by
  simp [Statement, Instr.kind, kindOf, encode, fieldC_formatXY, fieldD_formatXY]

theorem andReg (x y : RegIx) : Statement (.andReg x y) := by
  simp [Statement, Instr.kind, kindOf, encode, fieldC_formatXY, fieldD_formatXY]

theorem xorReg (x y : RegIx) : Statement (.xorReg x y) := by
  simp [Statement, Instr.kind, kindOf, encode, fieldC_formatXY, fieldD_formatXY]

theorem addReg (x y : RegIx) : Statement (.addReg x y) := by
  simp [Statement, Instr.kind, kindOf, encode, fieldC_formatXY, fieldD_formatXY]

end Sys2Proof.Laws.EncodeRow
end

