-- ==== Sys2Proof/Tests/Slice0.lean ====
section
/-! SUPPORT. Tests/Slice0.lean: the smoke test of the well-formedness check, decode tests on words written out from
spec/30_encoding.md R66, one-step tests whose expected values are the vectors of spec/95_test_vectors.md section 2 (named by
their number there), and for each statement with hypotheses a witness that meets them. -/

namespace Sys2Proof.Tests

open Sys2Proof.Machine

/-! ## Helpers -/

/-- A running core with the word `op` at `pc` and everything else as reset leaves it. -/
def runAt (pc : Addr) (op : Opcode) : State :=
  { State.reset with mem := Memory.writeWord [] pc.toNat op, pc := pc, status := .running }

/-- With `sp` and the entry `k` of the stack set. -/
def withStack (s : State) (sp : Fin 17) (k : Fin 16) (v : Addr) : State :=
  { s with sp := sp, stack := s.stack.set k v }

/-- The step from `s` answers the next state `f s`, in every field. -/
def steps (s : State) (f : State → State) : Bool :=
  match step s with
  | .next t => t == f s
  | .fault _ => false
  | .refused _ => false

/-- `s` after the step raised `c` with `v` and left `pc` at `p`. -/
def faultedAt (p : Addr) (c : FaultCause) (v : Addr) (s : State) : State :=
  { s with pc := p, status := .faulted, faultCause := c, faultValue := v }

/-- The state a step gives. -/
def after (s : State) : State := runLoop 1 s

/-! ## The well-formedness check refuses each ill-formed spelling (30_encoding.md R63, R74) -/

theorem test_wellFormed_refuses_register_16 :
    (Spelling.mk .loadReg [16, 0]).wellFormed = false ∧ (Spelling.mk .loadReg [0, 16]).wellFormed = false ∧
    (Spelling.mk .addImm [16, 0]).wellFormed = false ∧ (Spelling.mk .loadReg [16, 0]).toInstr = none := by decide

theorem test_wellFormed_refuses_immediate_256 :
    (Spelling.mk .loadImm [15, 256]).wellFormed = false ∧ (Spelling.mk .loadImm [15, 256]).toInstr = none := by decide

theorem test_wellFormed_refuses_address_4096 :
    (Spelling.mk .jump [4096]).wellFormed = false ∧ (Spelling.mk .jump [4096]).toInstr = none := by decide

theorem test_wellFormed_refuses_wrong_operand_count :
    (Spelling.mk .halt [0]).wellFormed = false ∧ (Spelling.mk .call []).wellFormed = false ∧
    (Spelling.mk .addImm [1]).wellFormed = false ∧ (Spelling.mk .addReg [1, 2, 3]).wellFormed = false := by decide

theorem test_wellFormed_refuses_unsupported :
    (Spelling.mk .unsupported []).wellFormed = false ∧ (Spelling.mk .unsupported []).toInstr = none := by decide

theorem test_wellFormed_accepts_the_largest_operands :
    (Spelling.mk .call [4095]).toInstr = some (.call 0xFFF#12) ∧
    (Spelling.mk .skipEqImm [15, 255]).toInstr = some (.skipEqImm 0xF#4 0xFF#8) ∧
    (Spelling.mk .addReg [15, 0]).toInstr = some (.addReg 0xF#4 0x0#4) := by decide

/-! ## Decoding, one word per constructor bit by bit (30_encoding.md R66; 95_test_vectors.md 2.1) -/

theorem test_decode_Z :
    decodeWord 0b0000000000000000#16 = .ok .halt ∧ decodeWord 0b0000000011100000#16 = .ok .clear ∧
    decodeWord 0b0000000011101110#16 = .ok .ret := by decide

theorem test_decode_A :
    decodeWord 0b0001000011100000#16 = .ok (.jump 0x0E0#12) ∧
    decodeWord 0b0010111111111111#16 = .ok (.call 0xFFF#12) := by decide

theorem test_decode_XK :
    decodeWord 0b0011110001111111#16 = .ok (.skipEqImm 0xC#4 0x7F#8) ∧
    decodeWord 0b0100101000010010#16 = .ok (.skipNeqImm 0xA#4 0x12#8) ∧
    decodeWord 0b0110111100000001#16 = .ok (.loadImm 0xF#4 0x01#8) ∧
    decodeWord 0b0111000000001010#16 = .ok (.addImm 0x0#4 0x0A#8) := by decide

theorem test_decode_XY :
    decodeWord 0b0101101010110000#16 = .ok (.skipEqReg 0xA#4 0xB#4) ∧
    decodeWord 0b1000101010110000#16 = .ok (.loadReg 0xA#4 0xB#4) ∧
    decodeWord 0b1000101010110001#16 = .ok (.orReg 0xA#4 0xB#4) ∧
    decodeWord 0b1000101010110010#16 = .ok (.andReg 0xA#4 0xB#4) ∧
    decodeWord 0b1000101010110011#16 = .ok (.xorReg 0xA#4 0xB#4) ∧
    decodeWord 0b1000101010110100#16 = .ok (.addReg 0xA#4 0xB#4) := by decide

/-- Neighbours of supported words, none of which falls through (30_encoding.md R67, R68, R69; C2). -/
theorem test_decode_rejects_the_neighbours :
    [0x0001#16, 0x00E1#16, 0x00EF#16, 0x0100#16, 0x0EE0#16, 0x0FFF#16, 0x5AB1#16, 0x5ABF#16, 0x8AB5#16,
     0x8AB6#16, 0x8ABE#16, 0x8ABF#16, 0x9000#16, 0xA000#16, 0xD015#16, 0xF065#16, 0xFFFF#16].all
      (fun op => decide (decodeWord op = .error (.unsupportedOpcode op))) = true := by decide

theorem test_decodeBytes_big_endian_and_rest :
    decodeBytes [0x14#8, 0x80#8, 0xAA#8] = .ok (.jump 0x480#12, [0xAA#8]) ∧
    decodeBytes [0x14#8] = .error .fewerThanTwoBytes ∧ decodeBytes [] = .error .fewerThanTwoBytes := by decide

/-- 30_encoding.md R74's table read backwards: the word of each format's last operand values. -/
theorem test_encode :
    encode (.call 0x345#12) = 0x2345#16 ∧ encode (.addImm 0xF#4 0xF5#8) = 0x7FF5#16 ∧
    encode (.xorReg 0x8#4 0xF#4) = 0x88F3#16 ∧ encodeBytes (.addReg 0x0#4 0x1#4) = [0x80#8, 0x14#8] := by decide

theorem test_decodeTableWord :
    decodeTableWord 16 0x8AB4 = some (.addReg 0xA#4 0xB#4) ∧ decodeTableWord 16 0x00EE = some .ret ∧
    decodeTableWord 16 0x8AB5 = none := by decide

theorem test_withFetchWord_runs_the_word :
    steps (State.reset.withFetchWord 16 0x6A7F) (fun s => { s.writeReg 0xA#4 0x7F#8 with pc := 0x0002#16 }) = true := by
  decide

/-- The spelling of R72. -/
theorem test_show :
    Instr.show .ret = "RETURN" ∧ Instr.show (.call 0x34A#12) = "CALL 0x34A" ∧
    Instr.show (.addImm 0xF#4 0x0A#8) = "ADD_IMM VF, 0x0A" ∧ Instr.show (.addReg 0x0#4 0x1#4) = "ADD_REG V0, V1" := by
  decide

/-! ## Steps (95_test_vectors.md section 2) -/

/-- F5, F6, F7. -/
theorem test_fetch_outside_memory :
    steps (runAt 0x0FFF#16 0x6005#16) (faultedAt 0x0FFF#16 .memoryOutOfBounds 0x1000#16) = true ∧
    steps (runAt 0x1000#16 0x6005#16) (faultedAt 0x1000#16 .memoryOutOfBounds 0x1000#16) = true ∧
    steps (runAt 0x1002#16 0x6005#16) (faultedAt 0x1002#16 .memoryOutOfBounds 0x1002#16) = true := by decide

/-- F3, F4: an odd `pc`, and the last legal one. -/
theorem test_fetch_odd_and_last :
    steps (runAt 0x0001#16 0x602A#16) (fun s => { s.writeReg 0x0#4 0x2A#8 with pc := 0x0003#16 }) = true ∧
    steps (runAt 0x0FFE#16 0x6005#16) (fun s => { s.writeReg 0x0#4 0x05#8 with pc := 0x1000#16 }) = true := by decide

/-- F8, H4, K14: the whole word is recorded, `pc` advanced. -/
theorem test_unsupported :
    steps (runAt 0x0010#16 0x9999#16) (faultedAt 0x0012#16 .unsupportedOpcode 0x9999#16) = true ∧
    steps (runAt 0x0010#16 0x0001#16) (faultedAt 0x0012#16 .unsupportedOpcode 0x0001#16) = true ∧
    steps (runAt 0x0010#16 0x5121#16) (faultedAt 0x0012#16 .unsupportedOpcode 0x5121#16) = true := by decide

/-- 40_fetch_and_step.md R80, D23: no step exists outside a run. -/
theorem test_no_step_when_idle : step State.reset = .fault (.noStep .idle) := by rfl

/-- H1. -/
theorem test_halt :
    steps (withStack ((runAt 0x0010#16 0x0000#16).writeReg 0x3#4 0x09#8) 2 1 0x0111#16)
      (fun s => { s with pc := 0x0012#16, status := .halted }) = true := by decide

/-- H3. -/
theorem test_clear :
    steps (withStack ((runAt 0x0010#16 0x00E0#16).writeReg 0x3#4 0x09#8) 2 1 0x0111#16)
      (fun s => { s with pc := 0x0012#16 }) = true := by decide

/-- C9, C11: the slot keeps its value. -/
theorem test_return :
    steps (withStack (runAt 0x0010#16 0x00EE#16) 1 0 0x0456#16) (fun s => { s with pc := 0x0456#16, sp := 0 }) = true ∧
    steps (withStack (runAt 0x0010#16 0x00EE#16) 16 15 0x0ABC#16) (fun s => { s with pc := 0x0ABC#16, sp := 15 }) = true := by
  decide

/-- C10. -/
theorem test_return_underflow :
    steps (withStack (runAt 0x0010#16 0x00EE#16) 0 0 0x0456#16) (faultedAt 0x0012#16 .stackUnderflow 0x0000#16) = true := by
  decide

/-- C2, C4: an odd target is loaded as it stands. -/
theorem test_jump :
    steps (runAt 0x0010#16 0x1FFF#16) (fun s => { s with pc := 0x0FFF#16 }) = true ∧
    steps (runAt 0x0010#16 0x1001#16) (fun s => { s with pc := 0x0001#16 }) = true := by decide

/-- C6, C8: the 16th level succeeds; 0x1000 can be pushed. -/
theorem test_call :
    steps (withStack (runAt 0x0010#16 0x2345#16) 15 0 0x0456#16)
      (fun s => { withStack s 16 15 0x0012#16 with pc := 0x0345#16 }) = true ∧
    steps (runAt 0x0FFE#16 0x2000#16) (fun s => { withStack s 1 0 0x1000#16 with pc := 0x0000#16 }) = true := by decide

/-- C7. -/
theorem test_call_overflow :
    steps (withStack (runAt 0x0010#16 0x2345#16) 16 15 0x0AAA#16) (faultedAt 0x0012#16 .stackOverflow 0x0000#16) = true := by
  decide

/-- K2, K6. -/
theorem test_skipEqImm :
    steps ((runAt 0x0010#16 0x3005#16).writeReg 0x0#4 0x06#8) (fun s => { s with pc := 0x0012#16 }) = true ∧
    steps ((runAt 0x0FFE#16 0x3005#16).writeReg 0x0#4 0x05#8) (fun s => { s with pc := 0x1002#16 }) = true := by decide

/-- K7, K9. -/
theorem test_skipNeqImm :
    steps ((runAt 0x0010#16 0x4005#16).writeReg 0x0#4 0x05#8) (fun s => { s with pc := 0x0012#16 }) = true ∧
    steps ((runAt 0x0010#16 0x4F00#16).writeReg 0xF#4 0x01#8) (fun s => { s with pc := 0x0014#16 }) = true := by decide

/-- K11, K12. -/
theorem test_skipEqReg :
    steps (((runAt 0x0010#16 0x5120#16).writeReg 0x1#4 0x07#8).writeReg 0x2#4 0x08#8)
      (fun s => { s with pc := 0x0012#16 }) = true ∧
    steps ((runAt 0x0010#16 0x5330#16).writeReg 0x3#4 0x09#8) (fun s => { s with pc := 0x0014#16 }) = true := by decide

/-- L1, L3. -/
theorem test_loadImm :
    steps ((runAt 0x0010#16 0x6A7F#16).writeReg 0xA#4 0x11#8)
      (fun s => { s.writeReg 0xA#4 0x7F#8 with pc := 0x0012#16 }) = true ∧
    steps (runAt 0x0010#16 0x6F01#16) (fun s => { s.writeReg 0xF#4 0x01#8 with pc := 0x0012#16 }) = true := by decide

/-- I1, I6: wraps, no flag. -/
theorem test_addImm :
    steps (((runAt 0x0010#16 0x7001#16).writeReg 0x0#4 0xFF#8).writeReg 0xF#4 0x55#8)
      (fun s => { s.writeReg 0x0#4 0x00#8 with pc := 0x0012#16 }) = true ∧
    steps ((runAt 0x0010#16 0x7FF5#16).writeReg 0xF#4 0x10#8)
      (fun s => { s.writeReg 0xF#4 0x05#8 with pc := 0x0012#16 }) = true := by decide

/-- L4, L7. -/
theorem test_loadReg :
    steps (((runAt 0x0010#16 0x8120#16).writeReg 0x1#4 0x11#8).writeReg 0x2#4 0x22#8)
      (fun s => { s.writeReg 0x1#4 0x22#8 with pc := 0x0012#16 }) = true ∧
    steps ((runAt 0x0010#16 0x82F0#16).writeReg 0xF#4 0x01#8)
      (fun s => { s.writeReg 0x2#4 0x01#8 with pc := 0x0012#16 }) = true := by decide

/-- Two registers set, then the word run: the result register is `r`. -/
def logic (op : Opcode) (a b f : Byte) (r : RegIx) (v : Byte) : Bool :=
  steps ((((runAt 0x0010#16 op).writeReg 0x1#4 a).writeReg 0x2#4 b).writeReg 0xF#4 f)
    (fun s => { s.writeReg r v with pc := 0x0012#16 })

/-- B1, B4. -/
theorem test_orReg :
    logic 0x8121#16 0xF0#8 0x0F#8 0x01#8 0x1#4 0xFF#8 = true ∧
    logic 0x8F21#16 0x00#8 0x80#8 0x01#8 0xF#4 0x81#8 = true := by decide

/-- B5, B8. -/
theorem test_andReg :
    logic 0x8122#16 0xF0#8 0x3C#8 0x01#8 0x1#4 0x30#8 = true ∧
    logic 0x8F22#16 0x00#8 0x01#8 0x03#8 0xF#4 0x01#8 = true := by decide

/-- B9, B11. -/
theorem test_xorReg :
    logic 0x8123#16 0xF0#8 0x3C#8 0x01#8 0x1#4 0xCC#8 = true ∧
    logic 0x8113#16 0x5A#8 0x00#8 0x01#8 0x1#4 0x00#8 = true := by decide

/-- `V[0]`, `V[1]`, `V[15]` set, an ADD_REG run: then `V[0]` and `V[15]` hold `v` and `f'`. -/
def added (op : Opcode) (a b f v f' : Byte) : Bool :=
  steps ((((runAt 0x0010#16 op).writeReg 0x0#4 a).writeReg 0x1#4 b).writeReg 0xF#4 f)
    (fun s => { (s.writeReg 0x0#4 v).writeReg 0xF#4 f' with pc := 0x0012#16 })

/-- A1, A3, A5, A13: the flag is written 0 or 1; with `y = F` the old flag is the operand. -/
theorem test_addReg :
    added 0x8014#16 0x00#8 0x00#8 0x01#8 0x00#8 0x00#8 = true ∧
    added 0x8014#16 0xFF#8 0xFF#8 0x00#8 0xFE#8 0x01#8 = true ∧
    added 0x8014#16 0x7F#8 0x80#8 0x01#8 0xFF#8 0x00#8 = true ∧
    added 0x80F4#16 0x01#8 0x00#8 0xFF#8 0x00#8 0x01#8 = true := by decide

/-- A11, A12: with `x = F` the flag write wins over the low byte. -/
theorem test_addReg_into_VF :
    added 0x8F14#16 0x00#8 0x20#8 0xF0#8 0x00#8 0x01#8 = true ∧
    added 0x8F14#16 0x00#8 0x20#8 0x10#8 0x00#8 0x00#8 = true := by decide

/-! ## Witnesses: each shows that the hypotheses of the statement it names are met, at the boundaries of its clauses -/

theorem test_witness_KindIsTheOneMatchingRowOfTheOpcodeTable :
    (⟨.skipEqReg, 0xF00F#16, 0x5000#16⟩ : Row) ∈ opcodeTable ∧ 0x5FF0#16 &&& 0xF00F#16 = 0x5000#16 ∧
    kindOf 0x5FF1#16 = .unsupported := by decide

theorem test_witness_RejectedWordsAreThoseOutsideTheOpcodeMap :
    decodeWord 0x0001#16 = .error (.unsupportedOpcode 0x0001#16) ∧
    decodeWord 0x5001#16 = .error (.unsupportedOpcode 0x5001#16) ∧
    decodeWord 0x8005#16 = .error (.unsupportedOpcode 0x8005#16) ∧
    decodeWord 0x9000#16 = .error (.unsupportedOpcode 0x9000#16) := by decide

theorem test_witness_EncodeOfDecodeIsTheOpcode : decodeWord 0x8FF4#16 = .ok (.addReg 0xF#4 0xF#4) := by decide

theorem test_witness_WellFormedSpellingsAreExactlyTheInstructions :
    (Spelling.mk .jump [4095]).toInstr = some (.jump 0xFFF#12) := by decide

theorem test_witness_OneByteReadIsBoundsCheckedAndNeverWraps :
    (0x0FFF#16).toNat ≤ 0x0FFF ∧ 0x0FFF < (0x1000#16).toNat := by decide

theorem test_witness_FetchPacksTheTwoBytesAtPcBigEndian : (runAt 0x0FFE#16 0x8014#16).pc.toNat ≤ 0x0FFE := by decide

theorem test_witness_MemoriesThatReadAlikeAreEqual :
    Memory.wf (Memory.writeByte (Memory.writeByte [] 0x0FFF 0x01#8) 0x0000 0x02#8) = true ∧
    Memory.wf [(0x0000, 0x02#8), (0x0FFF, 0x01#8)] = true ∧
    ∀ a, Memory.readByte (Memory.writeByte (Memory.writeByte [] 0x0FFF 0x01#8) 0x0000 0x02#8) a =
      Memory.readByte [(0x0000, 0x02#8), (0x0FFF, 0x01#8)] a := by
  refine ⟨by decide, by decide, fun a => ?_⟩
  rw [show Memory.writeByte (Memory.writeByte [] 0x0FFF 0x01#8) 0x0000 0x02#8 =
    [(0x0000, 0x02#8), (0x0FFF, 0x01#8)] by decide]

theorem test_witness_FetchOutsideMemoryFaultsWithoutAdvancing :
    (runAt 0x0FFF#16 0x6005#16).status = .running ∧ 0x0FFE < (runAt 0x0FFF#16 0x6005#16).pc.toNat ∧
    0x0FFE < (runAt 0xFFFF#16 0x6005#16).pc.toNat := by decide

theorem test_witness_StepExecutesTheDecodedInstruction :
    (runAt 0x0FFE#16 0x6F05#16).status = .running ∧ (runAt 0x0FFE#16 0x6F05#16).pc.toNat ≤ 0x0FFE ∧
    decodeBytes [(runAt 0x0FFE#16 0x6F05#16).mem.readByte 0x0FFE, (runAt 0x0FFE#16 0x6F05#16).mem.readByte 0x0FFF] =
      .ok (.loadImm 0xF#4 0x05#8, []) := by decide

theorem test_witness_PlacedWordIsRunByTheNextStep :
    (runAt 0x0FFE#16 0x6F05#16).mem.wf = true ∧ (runAt 0x0FFE#16 0x6F05#16).pc.toNat ≤ 0x0FFE := by decide

theorem test_witness_UnsupportedWordFaultsAfterTheAdvance :
    (runAt 0x0FFE#16 0x8005#16).status = .running ∧ fetch (runAt 0x0FFE#16 0x8005#16) = .ok 0x8005#16 ∧
    kindOf 0x8005#16 = .unsupported := by decide

theorem test_witness_StepExistsExactlyWhileRunning :
    (runAt 0x0000#16 0x0000#16).status = .running ∧ State.reset.status ≠ .running := by decide

/-- HALT, and one state for each of the four faults. -/
theorem test_witness_RunEndsOnlyAtHaltOrAtOneOfTheFourFaults :
    step (runAt 0x0FFE#16 0x0000#16) = .next (after (runAt 0x0FFE#16 0x0000#16)) ∧
    FatalIn (runAt 0x0FFF#16 0x0000#16) (.memoryOutOfBounds 0x1000#16) ∧
    FatalIn (runAt 0x1000#16 0x0000#16) (.memoryOutOfBounds 0x1000#16) ∧
    FatalIn (runAt 0x0010#16 0x9999#16) (.unsupportedOpcode 0x9999#16) ∧
    FatalIn (withStack (runAt 0x0010#16 0x2345#16) 16 0 0x0002#16) .stackOverflow ∧
    FatalIn (runAt 0x0010#16 0x00EE#16) .stackUnderflow := by
  refine ⟨rfl, .inl (by decide), .inl (by decide), .inr ⟨0x9999#16, by decide, .inl (by decide)⟩,
    .inr ⟨0x2345#16, by decide, .inr (.inl (by decide))⟩, .inr ⟨0x00EE#16, by decide, .inr (.inr (by decide))⟩⟩

/-- One fault without the advance, one with it. -/
theorem test_witness_FaultingStepIsPrecise :
    step (runAt 0x0FFF#16 0x0000#16) = .next (after (runAt 0x0FFF#16 0x0000#16)) ∧
    (after (runAt 0x0FFF#16 0x0000#16)).status = .faulted ∧
    (after (runAt 0x0FFF#16 0x0000#16)).faultCause = .memoryOutOfBounds ∧
    step (runAt 0x0010#16 0x00EE#16) = .next (after (runAt 0x0010#16 0x00EE#16)) ∧
    (after (runAt 0x0010#16 0x00EE#16)).faultCause ≠ .memoryOutOfBounds := by
  refine ⟨rfl, by decide, by decide, rfl, by decide⟩

theorem test_witness_RaiseWritesOnlyStatusAndFaultRecord :
    (raise (.unsupportedOpcode 0x5001#16) State.reset).faultCause = .unsupportedOpcode ∧
    (raise (.memoryOutOfBounds 0x1000#16) State.reset).faultCause = .memoryOutOfBounds := by decide

theorem test_witness_PcAfterAStepIsThatOfTheTable :
    0x0FFE < (runAt 0x0FFF#16 0x0000#16).pc.toNat ∧
    fetch (runAt 0x0FFE#16 0x3000#16) = .ok 0x3000#16 ∧ decodeWord 0x3000#16 = .ok (.skipEqImm 0x0#4 0x00#8) ∧
    fetch (runAt 0x0FFE#16 0x9000#16) = .ok 0x9000#16 ∧
    decodeWord 0x9000#16 = .error (.unsupportedOpcode 0x9000#16) := by decide

/-- A register other than the flag and the flag itself, both changed by one step. -/
theorem test_witness_StepWritesOnlyTheRegistersOfTheTable :
    let s := ((runAt 0x0010#16 0x8014#16).writeReg 0x0#4 0xFF#8).writeReg 0x1#4 0x02#8
    step s = .next (after s) ∧ (after s).readReg 0x0#4 ≠ s.readReg 0x0#4 ∧ (after s).readReg 0xF#4 ≠ s.readReg 0xF#4 := by
  refine ⟨rfl, by decide, by decide⟩

/-- A register the instruction writes without reading it, and one it does neither with. -/
theorem test_witness_UnreadRegisterDoesNotInfluenceAnInstruction :
    0xF#4 ∉ regsRead (.addReg 0x0#4 0x1#4) ∧ 0xF#4 ∈ regsWritten (.addReg 0x0#4 0x1#4) ∧
    0x5#4 ∉ regsRead (.addReg 0x0#4 0x1#4) ∧ 0x5#4 ∉ regsWritten (.addReg 0x0#4 0x1#4) ∧
    exec (.addReg 0x0#4 0x1#4) State.reset = .next ((State.reset.writeReg 0x0#4 0x00#8).writeFlag false) := by
  refine ⟨by decide, by decide, by decide, by decide, rfl⟩

/-- By ADD_REG, and as the destination of LOAD_IMM. -/
theorem test_witness_FlagRegisterChangesOnlyByAddRegOrAsDestination :
    let s := (runAt 0x0010#16 0x8014#16).writeReg 0xF#4 0x55#8
    let u := runAt 0x0010#16 0x6F01#16
    step s = .next (after s) ∧ (after s).readReg 0xF#4 ≠ s.readReg 0xF#4 ∧
    step u = .next (after u) ∧ (after u).readReg 0xF#4 ≠ u.readReg 0xF#4 := by
  refine ⟨rfl, by decide, rfl, by decide⟩

/-- The deepest push and the first pop. -/
theorem test_witness_StackChangesOnlyByCallAndReturn :
    let s := withStack (runAt 0x0FFE#16 0x2345#16) 15 0 0x0002#16
    let u := withStack (runAt 0x0010#16 0x00EE#16) 1 0 0x0002#16
    step s = .next (after s) ∧ (after s).sp ≠ s.sp ∧ (after s).stack[(15 : Fin 16)] ≠ s.stack[(15 : Fin 16)] ∧
    step u = .next (after u) ∧ (after u).sp ≠ u.sp := by
  refine ⟨rfl, by decide, by decide, rfl, by decide⟩

theorem test_witness_HaltEndsTheRun :
    (runAt 0x0FFE#16 0x0000#16).status = .running ∧ fetch (runAt 0x0FFE#16 0x0000#16) = .ok 0x0000#16 := by decide

theorem test_witness_ClearDoesNothing :
    (runAt 0x0FFE#16 0x00E0#16).status = .running ∧ fetch (runAt 0x0FFE#16 0x00E0#16) = .ok 0x00E0#16 := by decide

/-- The lowest and the highest level that can be popped, and the empty stack. -/
theorem test_witness_ReturnPopsIntoPc :
    (withStack State.reset 1 0 0x0002#16).sp.val = (0 : Fin 16).val + 1 ∧
    (withStack State.reset 16 15 0x1000#16).sp.val = (15 : Fin 16).val + 1 ∧ State.reset.sp.val = 0 := by decide

/-- The lowest and the highest level that can be pushed, and the full stack. -/
theorem test_witness_CallPushesTheReturnAddress :
    State.reset.sp.val = (0 : Fin 16).val ∧ (withStack State.reset 15 0 0x0002#16).sp.val = (15 : Fin 16).val ∧
    (withStack State.reset 16 15 0x1000#16).sp.val = 16 := by decide

theorem test_witness_PushAndPopTestBeforeTheyMove :
    State.reset.sp.val = (0 : Fin 16).val ∧ (withStack State.reset 15 0 0x0002#16).sp.val = (15 : Fin 16).val ∧
    (withStack State.reset 16 15 0x1000#16).sp.val = 16 ∧
    (withStack State.reset 16 15 0x1000#16).sp.val = (15 : Fin 16).val + 1 ∧ State.reset.sp.val = 0 := by decide

/-- Equal and different operands of the three skips. -/
theorem test_witness_Skips :
    State.reset.readReg 0xF#4 = 0x00#8 ∧ State.reset.readReg 0xF#4 ≠ 0xFF#8 ∧
    State.reset.readReg 0x0#4 = State.reset.readReg 0xF#4 ∧
    (State.reset.writeReg 0xF#4 0x01#8).readReg 0x0#4 ≠ (State.reset.writeReg 0xF#4 0x01#8).readReg 0xF#4 ∧
    exec (.skipEqImm 0xF#4 0x00#8) State.reset = .next State.reset.bumpPc ∧
    exec (.skipNeqImm 0xF#4 0x00#8) State.reset = .next State.reset := by
  refine ⟨by decide, by decide, by decide, by decide, rfl, rfl⟩

/-- A taken skip over a word that differs between the two memories. -/
theorem test_witness_SkippedBytesPlayNoPart :
    let s := runAt 0x0010#16 0x3000#16
    let m' := s.mem.writeWord 0x0012 0x9999#16
    s.status = .running ∧ fetch s = .ok 0x3000#16 ∧ kindOf 0x3000#16 ∈ [Kind.skipEqImm, .skipNeqImm, .skipEqReg] ∧
    m'.readByte 0x0010 = s.mem.readByte 0x0010 ∧ m'.readByte 0x0011 = s.mem.readByte 0x0011 ∧
    m'.readByte 0x0012 ≠ s.mem.readByte 0x0012 := by decide

/-- A sum with a carry and one without, the flag register as an operand. -/
theorem test_witness_AddRegStoresTheSumAndThenTheCarry :
    let s := (State.reset.writeReg 0x0#4 0x01#8).writeReg 0xF#4 0xFF#8
    0x0#4 ≠ 0xF#4 ∧ 255 < (s.readReg 0x0#4).toNat + (s.readReg 0xF#4).toNat ∧
    (s.readReg 0x1#4).toNat + (s.readReg 0xF#4).toNat ≤ 255 := by decide

theorem test_witness_NextInstructionSeesTheWrittenValue :
    exec (.loadImm 0xF#4 0x05#8) State.reset = .next (State.reset.writeReg 0xF#4 0x05#8) ∧
    exec (.addReg 0x0#4 0x1#4) State.reset = .next ((State.reset.writeReg 0x0#4 0x00#8).writeFlag false) ∧
    (withStack State.reset 15 0 0x0002#16).sp.val < 16 ∧
    exec (.call 0xFFF#12) (withStack State.reset 15 0 0x0002#16) =
      .next { withStack (withStack State.reset 15 0 0x0002#16) 16 15 0x0000#16 with pc := 0x0FFF#16 } := by
  refine ⟨rfl, rfl, by decide, rfl⟩

/-- The state in which a run that calls 0x234 from 0x0010 begins, with `sp` set; LOAD_IMM V0, 0x05 and RETURN stand at 0x234. -/
def callRun (sp : Fin 17) : State :=
  let s := runAt 0x0010#16 0x2234#16
  { s with mem := (s.mem.writeWord 0x0234 0x6005#16).writeWord 0x0236 0x00EE#16, sp := sp }

/-- All hypotheses of the statement at level `k`, with one instruction between the CALL and its RETURN. -/
def callRunMeets (k : Fin 16) : Prop :=
  let s0 := callRun k.castSucc
  let s1 := after s0
  let sn := runLoop 1 s1
  s0.status = .running ∧ fetch s0 = .ok 0x2234#16 ∧ kindOf 0x2234#16 = .call ∧ s0.sp.val = k.val ∧
  step s0 = .next s1 ∧ (∀ m ≤ 1, k.val < (runLoop m s1).sp.val) ∧ sn.status = .running ∧ sn.sp.val = k.val + 1 ∧
  fetch sn = .ok 0x00EE#16 ∧ kindOf 0x00EE#16 = .ret ∧ step sn = .next (after sn)

/-- At the lowest and at the highest level. -/
theorem test_witness_ReturnGoesBackToTheMatchingCall : callRunMeets 0 ∧ callRunMeets 15 := by
  refine ⟨⟨?_, ?_, ?_, ?_, rfl, ?_, ?_, ?_, ?_, ?_, rfl⟩, ⟨?_, ?_, ?_, ?_, rfl, ?_, ?_, ?_, ?_, ?_, rfl⟩⟩ <;> decide

/-- A running state with a live entry, and one that faults. -/
theorem test_witness_EveryStepKeepsTheInvariant :
    let s := withStack (runAt 0x0010#16 0x00EE#16) 16 15 0x1000#16
    let u := runAt 0x0FFF#16 0x0000#16
    (Inv (withStack s 1 0 0x1000#16) ∧ step (withStack s 1 0 0x1000#16) = .next (after (withStack s 1 0 0x1000#16))) ∧
    Inv u ∧ step u = .next (after u) := by
  refine ⟨⟨by decide, rfl⟩, by decide, rfl⟩

theorem test_witness_EveryStepKeepsPcInReach :
    let s := runAt 0x0FFE#16 0x3000#16
    PcInReach s ∧ step s = .next (after s) ∧ (after s).pc = 0x1002#16 ∧ fetch s = .ok 0x3000#16 := by
  refine ⟨by decide, rfl, by decide, by decide⟩

theorem test_witness_EveryHostOperationKeepsTheInvariant :
    Inv State.reset ∧ Inv (runAt 0x0010#16 0x6005#16) ∧ Inv (after (runAt 0x0010#16 0x9999#16)) := by
  refine ⟨by decide, by decide, by decide⟩

theorem test_witness_ResetSetsEverythingButMemory :
    (after (runAt 0x0010#16 0x9999#16)).status ≠ .running ∧ (after (runAt 0x0010#16 0x0000#16)).status ≠ .running ∧
    State.reset.status ≠ .running := by decide

theorem test_witness_RefusedHostOperationsChangeNothing :
    (runAt 0x0010#16 0x9999#16).status = .running ∧ (after (runAt 0x0010#16 0x9999#16)).status = .faulted ∧
    (after (runAt 0x0010#16 0x0000#16)).status = .halted ∧ HostOp.run ≠ .reset ∧ 0x0FFF < 0x1000 := by decide

theorem test_witness_HostWritesChangeWhatTheyNameOnly :
    State.reset.status = .idle ∧ State.reset.mem.wf = true ∧
    (hostStep (.loadMem 0x0FFF 0x12#8) State.reset).mem.readByte 0x0FFF = 0x12#8 := by decide

/-- From a faulted state, with writes (one of them refused) and with none. -/
theorem test_witness_LaunchStateIsFresh :
    (after (runAt 0x0010#16 0x9999#16)).status ≠ .running ∧
    (∀ o ∈ [HostOp.loadMem 0x1000 0x12#8, .setReg 0xF#4 0x34#8, .setPC 0xFFFF#16, .reset], o ≠ HostOp.run) ∧
    ∀ o ∈ ([] : List HostOp), o ≠ HostOp.run := by decide

theorem test_witness_LastHostWriteToAPlaceWins :
    State.reset.status = .idle ∧ State.reset.mem.wf = true ∧
    (∀ o ∈ [HostOp.loadMem 0x0FFF 0x12#8, .loadMem 0x0FFF 0x00#8, .setReg 0xF#4 0x34#8, .setPC 0x0001#16],
      o ≠ HostOp.run ∧ o ≠ HostOp.reset) := by decide

theorem test_witness_InspectShowsTheWholeStateOutsideARun :
    State.reset.status ≠ .running ∧ (∃ v, inspect (withStack State.reset 16 15 0x1000#16) = some v ∧ v.sp = 16#5) := by
  refine ⟨by decide, _, rfl, by decide⟩

/-- A run that has ended after one step, and a state that was never running. -/
theorem test_witness_EndedRunStaysWhereItEnded :
    (runLoop 1 (runAt 0x0010#16 0x0000#16)).status ≠ .running ∧ (runAt 0x0010#16 0x0000#16).status = .running ∧
    (runLoop 0 State.reset).status ≠ .running := by decide

theorem test_witness_FivePartsComposeToTheStep :
    (runAt 0x0010#16 0x8014#16).status = .running ∧ State.reset.status ≠ .running ∧
    step (runAt 0x0010#16 0x8014#16) = .next (stepByParts (runAt 0x0010#16 0x8014#16)) := by
  refine ⟨by decide, by decide, rfl⟩

/-- Each of the four fault signals is asserted in some state. -/
theorem test_witness_FaultSignalsExcludeRegisterWritesAndEachOther :
    (let s := runAt 0x0FFF#16 0x0000#16
     (fetchUnit (runEnable s.status) s.pc s.mem).fetchFault = true) ∧
    (aluOfStep (runAt 0x0010#16 0x9999#16)).unsupported = true ∧
    (let s := withStack (runAt 0x0010#16 0x2345#16) 16 0 0x0002#16
     (controller s.pc s.stack s.sp true (aluOfStep s).cmd).stackOverflow = true) ∧
    (let s := runAt 0x0010#16 0x00EE#16
     (controller s.pc s.stack s.sp true (aluOfStep s).cmd).stackUnderflow = true) := by decide

end Sys2Proof.Tests
end

section
/-! Frames: what an instruction and a step leave of memory, the stack, the run's status and fault record, and the
registers (10_state.md R18, R22, R25, R41), each read off `exec_cases` and `step_cases` once. -/

namespace Sys2Proof.Machine

/-! ## An instruction -/

theorem exec_mem {i : Instr} {s t : State} (h : exec i s = .next t) : t.mem = s.mem := by
  rcases exec_cases i s with ⟨p, he, -⟩ | ⟨x, v, he, -⟩ | ⟨x, y, -, he⟩ | ⟨-, he⟩ | ⟨hk, -, he⟩ | ⟨a, hk, -, he⟩ |
    ⟨-, -, he⟩ | ⟨a, -, -, he⟩ <;>
  · obtain rfl := Host.Outcome.next.inj (he.symm.trans h)
    rfl

/-- The stack stays, or loses its top entry to a RETURN, or gets the `pc` of a CALL on top (42_control_flow.md R114). -/
theorem exec_stack_cases {i : Instr} {s t : State} (h : exec i s = .next t) :
    (t.sp = s.sp ∧ t.stack = s.stack) ∨
    (i = .ret ∧ t.sp.val + 1 = s.sp.val ∧ t.stack = s.stack) ∨
    (∃ (a : Target) (hk : s.sp.val < 16), i = .call a ∧ t.sp.val = s.sp.val + 1 ∧
      t.stack = s.stack.set s.sp.val s.pc hk) := by
  rcases exec_cases i s with ⟨p, he, -⟩ | ⟨x, v, he, -⟩ | ⟨x, y, -, he⟩ | ⟨-, he⟩ | ⟨hk, hi, he⟩ | ⟨a, hk, hi, he⟩ |
    ⟨-, -, he⟩ | ⟨a, -, -, he⟩ <;>
  obtain rfl := Host.Outcome.next.inj (he.symm.trans h)
  · exact .inl ⟨rfl, rfl⟩
  · exact .inl ⟨rfl, rfl⟩
  · exact .inl ⟨rfl, rfl⟩
  · exact .inl ⟨rfl, rfl⟩
  · exact .inr (.inl ⟨hi, Nat.sub_add_cancel hk, rfl⟩)
  · exact .inr (.inr ⟨a, hk, hi, rfl, rfl⟩)
  · exact .inl ⟨rfl, rfl⟩
  · exact .inl ⟨rfl, rfl⟩

/-- The status and the fault record stay, but that HALT sets Halted, a RETURN on an empty stack raises StackUnderflow and
a CALL on a full one StackOverflow. -/
theorem exec_run_cases {i : Instr} {s t : State} (h : exec i s = .next t) :
    ((t.status = s.status ∨ t.status = .halted) ∧ SameRecord s t) ∨
    (i.kind = .ret ∧ s.sp.val = 0 ∧ t = raise .stackUnderflow s) ∨
    (i.kind = .call ∧ s.sp.val = 16 ∧ t = raise .stackOverflow s) := by
  rcases exec_cases i s with ⟨p, he, -⟩ | ⟨x, v, he, -⟩ | ⟨x, y, -, he⟩ | ⟨-, he⟩ | ⟨hk, -, he⟩ | ⟨a, hk, -, he⟩ |
    ⟨rfl, h0, he⟩ | ⟨a, rfl, h16, he⟩ <;>
  obtain rfl := Host.Outcome.next.inj (he.symm.trans h)
  · exact .inl ⟨.inl rfl, rfl, rfl⟩
  · exact .inl ⟨.inl rfl, rfl, rfl⟩
  · exact .inl ⟨.inl rfl, rfl, rfl⟩
  · exact .inl ⟨.inr rfl, rfl, rfl⟩
  · exact .inl ⟨.inl rfl, rfl, rfl⟩
  · exact .inl ⟨.inl rfl, rfl, rfl⟩
  · exact .inr (.inl ⟨rfl, h0, rfl⟩)
  · exact .inr (.inr ⟨rfl, h16, rfl⟩)

/-- A register outside the written column of 10_state.md R18 keeps its value. -/
theorem exec_readReg_of_not_written {i : Instr} {s t : State} {r : RegIx} (h : exec i s = .next t)
    (hr : r ∉ regsWritten i) : t.readReg r = s.readReg r := by
  rcases exec_cases i s with ⟨p, he, -⟩ | ⟨x, v, he, hw, -⟩ | ⟨x, y, rfl, he⟩ | ⟨-, he⟩ | ⟨hk, -, he⟩ |
    ⟨a, hk, -, he⟩ | ⟨-, -, he⟩ | ⟨a, -, -, he⟩ <;>
  obtain rfl := Host.Outcome.next.inj (he.symm.trans h)
  · rfl
  · rw [hw, List.mem_singleton] at hr
    exact readReg_writeReg_of_ne s v hr
  · simp only [regsWritten, List.mem_cons, List.not_mem_nil, or_false, not_or] at hr
    obtain ⟨hx, hF⟩ := hr
    rw [readReg_writeFlag, if_neg hF, readReg_writeReg_of_ne s _ hx]
  · rfl
  · rfl
  · rfl
  · rfl
  · rfl

/-! ## A step -/

theorem step_mem {s t : State} (h : step s = .next t) : t.mem = s.mem := by
  obtain ⟨-, ⟨f, -, rfl⟩ | ⟨op, -, ⟨-, rfl⟩ | ⟨i, -, -, he⟩⟩⟩ := step_cases h
  · rfl
  · rfl
  · exact (exec_mem he).trans (bumpPc_mem s)

/-- A step keeps the fault record and stays Running or ends Halted, or it takes one of the fatal conditions of
60_exceptions.md R150. -/
theorem step_run_cases {s t : State} (h : step s = .next t) :
    ((t.status = .running ∨ t.status = .halted) ∧ SameRecord s t) ∨ ∃ f u, FatalIn s f ∧ t = raise f u := by
  obtain ⟨hrun, ⟨f, hf, rfl⟩ | ⟨op, hop, ⟨hk, rfl⟩ | ⟨i, -, hk, he⟩⟩⟩ := step_cases h
  · exact .inr ⟨f, s, .inl (fetch_error hf), rfl⟩
  · exact .inr ⟨_, _, .inr ⟨op, hop, .inl ⟨hk, rfl⟩⟩, rfl⟩
  · rcases exec_run_cases he with ⟨hst, hrec⟩ | ⟨hi, h0, rfl⟩ | ⟨hi, h16, rfl⟩
    · rw [bumpPc_status, hrun] at hst
      exact .inl ⟨hst, hrec⟩
    · exact .inr ⟨_, _, .inr ⟨op, hop, .inr (.inr ⟨hk ▸ hi, h0, rfl⟩)⟩, rfl⟩
    · exact .inr ⟨_, _, .inr ⟨op, hop, .inr (.inl ⟨hk ▸ hi, h16, rfl⟩)⟩, rfl⟩

end Sys2Proof.Machine
end

section
/-! Invariant: reset and every step keep the invariant of 10_state.md R30. -/

namespace Sys2Proof.Machine

/-! ## The live stack entries -/

/-- The entries stay in range when no more of them are live and none changed. -/
theorem liveEntriesInRange_of_stack_eq {s t : State} (hl : LiveEntriesInRange s) (hsp : t.sp.val ≤ s.sp.val)
    (hst : t.stack = s.stack) : LiveEntriesInRange t := fun i hi => by
  rw [hst]
  exact hl i (by omega)

/-- A push of a value in range keeps the entries in range. -/
theorem liveEntriesInRange_of_push {s t : State} {v : Addr} {hk : s.sp.val < 16} (hl : LiveEntriesInRange s)
    (hv : 2 ≤ v.toNat ∧ v.toNat ≤ 0x1000) (hsp : t.sp.val = s.sp.val + 1)
    (hst : t.stack = s.stack.set s.sp.val v hk) : LiveEntriesInRange t := fun i hi => by
  rw [hst, Fin.getElem_fin, Vector.getElem_set]
  split_ifs with hik
  · exact hv
  · exact hl i (by omega)

theorem exec_liveEntriesInRange {i : Instr} {s t : State} (h : exec i s = .next t) (hl : LiveEntriesInRange s)
    (hpc : 2 ≤ s.pc.toNat ∧ s.pc.toNat ≤ 0x1000) : LiveEntriesInRange t := by
  rcases exec_stack_cases h with ⟨hsp, hst⟩ | ⟨-, hsp, hst⟩ | ⟨a, hk, -, hsp, hst⟩
  · exact liveEntriesInRange_of_stack_eq hl (by rw [hsp]) hst
  · exact liveEntriesInRange_of_stack_eq hl (by omega) hst
  · exact liveEntriesInRange_of_push hl hpc hsp hst

/-- The `pc` an instruction executes with is the address after a word inside memory. -/
theorem bumpPc_pc_toNat_of_fetch {s : State} {op : Opcode} (h : fetch s = .ok op) :
    s.bumpPc.pc.toNat = s.pc.toNat + 2 ∧ s.pc.toNat ≤ 0x0FFE := by
  obtain ⟨hle, -⟩ := fetch_ok h
  exact ⟨bump_toNat (by omega), hle⟩

theorem step_liveEntriesInRange {s t : State} (h : step s = .next t) (hl : LiveEntriesInRange s) :
    LiveEntriesInRange t := by
  obtain ⟨-, ⟨f, -, rfl⟩ | ⟨op, hop, ⟨-, rfl⟩ | ⟨i, -, -, he⟩⟩⟩ := step_cases h
  · exact hl
  · exact hl
  · obtain ⟨hpc, hle⟩ := bumpPc_pc_toNat_of_fetch hop
    exact exec_liveEntriesInRange he hl (by omega)

/-! ## The fault record -/

/-- Outside Faulted the record agrees with the status exactly when it is clear. -/
theorem recordConsistent_iff_of_not_faulted {s : State} (h : s.status ≠ .faulted) :
    RecordConsistent s ↔ s.faultCause = .none ∧ s.faultValue = 0x0000#16 := by
  constructor
  · rintro ⟨hst, hnone, -⟩
    have hc : s.faultCause = .none := by_contra fun hc => h (hst.2 hc)
    exact ⟨hc, hnone hc⟩
  · rintro ⟨hc, hv⟩
    simp [RecordConsistent, h, hc, hv]

/-- A fatal condition that can arise in a step leaves a record that agrees with Faulted. -/
theorem recordConsistent_raise {s u : State} {f : Fatal} (h : FatalIn s f) : RecordConsistent (raise f u) := by
  rcases h with ⟨hpc, rfl⟩ | ⟨op, -, ⟨hk, rfl⟩ | ⟨-, -, rfl⟩ | ⟨-, -, rfl⟩⟩
  · have hv : 0x1000 ≤ (if 0x0FFF < s.pc.toNat then s.pc else 0x1000#16).toNat := by
      split_ifs with h
      · exact h
      · decide
    simp [RecordConsistent, Fatal.cause, Fatal.value, hv]
  · simp [RecordConsistent, Fatal.cause, Fatal.value, hk]
  · simp [RecordConsistent, Fatal.cause, Fatal.value]
  · simp [RecordConsistent, Fatal.cause, Fatal.value]

theorem step_recordConsistent {s t : State} (h : step s = .next t) (hr : RecordConsistent s) :
    RecordConsistent t := by
  have hrun : s.status = .running := (step_cases h).1
  rcases step_run_cases h with ⟨hst, hc, hv⟩ | ⟨f, u, hf, rfl⟩
  · rw [recordConsistent_iff_of_not_faulted (by simp [hrun])] at hr
    rw [recordConsistent_iff_of_not_faulted (by rcases hst with hst | hst <;> simp [hst]), hc, hv]
    exact hr
  · exact recordConsistent_raise hf

theorem step_not_idle {s t : State} (h : step s = .next t) : t.status ≠ .idle := by
  rcases step_run_cases h with ⟨hst | hst, -⟩ | ⟨f, u, -, rfl⟩
  · simp [hst]
  · simp [hst]
  · simp

/-! ## The obligations -/

/-- Settles O44: the four parts of the invariant, one step lemma each. -/
theorem everyStepKeepsTheInvariant : Obligations.EveryStepKeepsTheInvariant := by
  rintro s t ⟨hmem, hlive, hrec, -⟩ h
  refine ⟨?_, step_liveEntriesInRange h hlive, step_recordConsistent h hrec, fun hidle => ?_⟩
  · rw [step_mem h]
    exact hmem
  · exact absurd hidle (step_not_idle h)

/-- Settles O43: after reset the memory lists nothing, nothing is live, and the record is clear. -/
theorem resetSatisfiesTheInvariant : Obligations.ResetSatisfiesTheInvariant := by
  have hlive : LiveEntriesInRange State.reset := fun i hi => absurd hi (Nat.not_lt_zero i)
  have hrec : RecordConsistent State.reset := (recordConsistent_iff_of_not_faulted (by decide)).2 ⟨rfl, rfl⟩
  exact ⟨⟨rfl, hlive, hrec, fun _ => ⟨rfl, rfl⟩⟩, Nat.zero_le _, hlive⟩

end Sys2Proof.Machine
end

section
/-! ProgramCounter: where `pc` goes in a step (10_state.md R16) and the range it stays in (R15). -/

namespace Sys2Proof.Machine

/-! ## The operations -/

theorem targetAddr_toNat (a : Target) : (targetAddr a).toNat = a.toNat := by
  have := a.isLt
  simp only [targetAddr, BitVec.toNat_setWidth]; omega

/-- A skip at an address that a fetch left behind is exact. -/
theorem skipIf_pc_toNat (c : Bool) {s : State} (h : s.pc.toNat ≤ 0x1000) :
    (skipIf c s).pc.toNat = if c then s.pc.toNat + 2 else s.pc.toNat := by
  cases c
  · rfl
  · exact bump_toNat h

/-- No instruction stops the model: each answers a next state. -/
theorem exec_next (i : Instr) (s : State) : ∃ t, exec i s = .next t := by
  rcases exec_cases i s with ⟨p, he, -⟩ | ⟨x, v, he, -⟩ | ⟨x, y, -, he⟩ | ⟨-, he⟩ | ⟨hk, -, he⟩ | ⟨a, hk, -, he⟩ |
    ⟨-, -, he⟩ | ⟨a, -, -, he⟩ <;>
  exact ⟨_, he⟩

/-! ## The table of R16 -/

/-- RETURN's row: the popped entry, or the address after it when there is none. -/
theorem execRet_pcRow {s t : State} (h : execRet s.bumpPc = .next t) (hpc : s.bumpPc.pc.toNat = s.pc.toNat + 2) :
    PcRow .ret s t.pc.toNat := by
  rcases execRet_cases s.bumpPc with ⟨hk, he⟩ | ⟨h0, he⟩ <;>
  obtain rfl := Host.Outcome.next.inj (he.symm.trans h) <;>
  rw [bumpPc_sp] at *
  · refine ⟨fun h0 => by omega, fun k hk => ?_⟩
    simp [hk]
  · exact ⟨fun _ => hpc, fun k hk => by omega⟩

/-- CALL's row: the target, or the address after it when the stack is full. -/
theorem execCall_pcRow {a : Target} {s t : State} (h : execCall a s.bumpPc = .next t)
    (hpc : s.bumpPc.pc.toNat = s.pc.toNat + 2) : PcRow (.call a) s t.pc.toNat := by
  rcases execCall_cases a s.bumpPc with ⟨hk, he⟩ | ⟨h16, he⟩ <;>
  obtain rfl := Host.Outcome.next.inj (he.symm.trans h) <;>
  rw [bumpPc_sp] at *
  · rw [PcRow, if_neg (by omega)]
    exact targetAddr_toNat a
  · rw [PcRow, if_pos h16]
    exact hpc

/-- An instruction fetched inside memory leaves `pc` at its row of the table, in exact arithmetic. -/
theorem exec_pcRow {i : Instr} {s t : State} (hle : s.pc.toNat ≤ 0x0FFE) (h : exec i s.bumpPc = .next t) :
    PcRow i s t.pc.toNat := by
  have hpc : s.bumpPc.pc.toNat = s.pc.toNat + 2 := bump_toNat (by omega)
  have hskip : ∀ c, (skipIf c s.bumpPc).pc.toNat = if c then s.pc.toNat + 4 else s.pc.toNat + 2 := fun c => by
    rw [skipIf_pc_toNat c (by omega), hpc]
  cases i with
  | ret => exact execRet_pcRow h hpc
  | call a => exact execCall_pcRow h hpc
  | jump a =>
    obtain rfl := Host.Outcome.next.inj h
    exact targetAddr_toNat a
  | skipEqImm x kk =>
    obtain rfl := Host.Outcome.next.inj h
    simp [PcRow, hskip]
  | skipNeqImm x kk =>
    obtain rfl := Host.Outcome.next.inj h
    simp [PcRow, hskip]
  | skipEqReg x y =>
    obtain rfl := Host.Outcome.next.inj h
    simp [PcRow, hskip]
  | halt | clear | loadImm x kk | addImm x kk | loadReg x y | orReg x y | andReg x y | xorReg x y | addReg x y =>
    obtain rfl := Host.Outcome.next.inj h
    exact hpc

/-- Settles O20: the step is the fetch's fault, or the instruction or the rejection in the advanced state. -/
theorem pcAfterAStepIsThatOfTheTable : Obligations.PcAfterAStepIsThatOfTheTable := by
  intro s hrun
  refine ⟨fun hpc => ?_, fun op i hop hi => ?_, fun op r hop hr => ?_⟩
  · cases hf : fetch s with
    | ok op => exact absurd (fetch_ok hf).1 (by omega)
    | error f => exact ⟨_, step_of_fetch_error hrun hf, rfl⟩
  · obtain ⟨t, ht⟩ := exec_next i s.bumpPc
    exact ⟨t, (step_of_decoded hrun hop hi).trans ht, exec_pcRow (fetch_ok hop).1 ht⟩
  · exact ⟨_, step_of_unsupported hrun hop (decodeWord_error hr).1, (bumpPc_pc_toNat_of_fetch hop).1⟩

/-! ## The reach of `pc` (R15) -/

/-- No row of the table leads above 0x1002: the farthest move is a taken skip at the last word of memory. -/
theorem pcRow_le {i : Instr} {s : State} {p : Nat} (h : PcRow i s p) (hle : s.pc.toNat ≤ 0x0FFE)
    (hl : LiveEntriesInRange s) : p ≤ 0x1002 := by
  cases i with
  | ret =>
    obtain ⟨hempty, hpop⟩ := h
    by_cases h0 : s.sp.val = 0
    · have := hempty h0
      omega
    · have := hpop ⟨s.sp.val - 1, by omega⟩ (by simp only; omega)
      have := hl ⟨s.sp.val - 1, by omega⟩ (by simp only; omega)
      omega
  | jump a =>
    have := a.isLt
    simp only [PcRow] at h
    omega
  | call a =>
    have := a.isLt
    simp only [PcRow] at h
    split_ifs at h <;> omega
  | skipEqImm x kk | skipNeqImm x kk | skipEqReg x y =>
    simp only [PcRow] at h
    split_ifs at h <;> omega
  | halt | clear | loadImm x kk | addImm x kk | loadReg x y | orReg x y | andReg x y | xorReg x y | addReg x y =>
    simp only [PcRow] at h
    omega

theorem step_pc_le {s t : State} (h : step s = .next t) (hp : PcInReach s) : t.pc.toNat ≤ 0x1002 := by
  obtain ⟨hpc, hl⟩ := hp
  obtain ⟨-, ⟨f, -, rfl⟩ | ⟨op, hop, ⟨-, rfl⟩ | ⟨i, -, -, he⟩⟩⟩ := step_cases h
  · exact hpc
  · obtain ⟨hbump, hle⟩ := bumpPc_pc_toNat_of_fetch hop
    rw [raise_pc]
    omega
  · exact pcRow_le (exec_pcRow (fetch_ok hop).1 he) (fetch_ok hop).1 hl

/-- Settles O45: the rows of R16 stay in reach, and a fetch that gives a word is made where `pc + 2` is exact. -/
theorem everyStepKeepsPcInReach : Obligations.EveryStepKeepsPcInReach :=
  ⟨fun _ _ hp h => ⟨step_pc_le h hp, step_liveEntriesInRange h hp.2⟩,
   fun _ _ hop => (bumpPc_pc_toNat_of_fetch hop).1⟩

end Sys2Proof.Machine
end

section
/-! Registers: the two columns of 10_state.md R18. -/

namespace Sys2Proof.Machine

/-! ## What is written -/

/-- Settles O22: the faults write no register, and an instruction none outside its row. -/
theorem stepWritesOnlyTheRegistersOfTheTable : Obligations.StepWritesOnlyTheRegistersOfTheTable := by
  intro s t h r hne
  obtain ⟨-, ⟨f, -, rfl⟩ | ⟨op, hop, ⟨-, rfl⟩ | ⟨i, hi, -, he⟩⟩⟩ := step_cases h
  · exact absurd (raise_readReg f s r) hne
  · exact absurd (raise_readReg _ s.bumpPc r) hne
  · have hread : ∀ r, s.bumpPc.readReg r = s.readReg r := bumpPc_readReg s
    exact ⟨op, i, hop, hi, by_contra fun hr => hne ((exec_readReg_of_not_written he hr).trans (hread r))⟩

/-! ## What is read -/

/-- A skip commutes with a register write that its condition does not see. -/
theorem skipIf_writeReg {c c' : Bool} (hc : c' = c) (s : State) (r : RegIx) (v : Byte) :
    skipIf c' (s.writeReg r v) = (skipIf c s).writeReg r v := by
  subst hc
  cases c' <;> rfl

theorem execRet_writeReg {s t : State} (h : execRet s = .next t) (r : RegIx) (v : Byte) :
    execRet (s.writeReg r v) = .next (t.writeReg r v) := by
  by_cases hk : 0 < s.sp.val <;> simp [execRet, pop, hk, orRaise, Except.map] at h ⊢ <;> subst h <;> rfl

theorem execCall_writeReg {a : Target} {s t : State} (h : execCall a s = .next t) (r : RegIx) (v : Byte) :
    execCall a (s.writeReg r v) = .next (t.writeReg r v) := by
  by_cases hk : s.sp.val < 16 <;> simp [execCall, push, hk, orRaise, Except.map] at h ⊢ <;> subst h <;> rfl

/-- A value put in `r` before `x` is written is lost if `r` is `x`, and otherwise as good as put there afterwards. -/
theorem writeReg_before_writeReg {w w' : Byte} (hw : w' = w) (s : State) (r x : RegIx) (v : Byte) :
    (s.writeReg r v).writeReg x w' = if r ∈ [x] then s.writeReg x w else (s.writeReg x w).writeReg r v := by
  subst hw
  by_cases hrx : r = x
  · simp [hrx, writeReg_writeReg]
  · simp [hrx, writeReg_comm s v w' hrx]

/-- The same for ADD_REG's two writes, when `r` is not its first operand. -/
theorem execAddReg_writeReg (s : State) {r x y : RegIx} (v : Byte) (hx : r ≠ x)
    (hrx : (s.writeReg r v).readReg x = s.readReg x) (hry : (s.writeReg r v).readReg y = s.readReg y) {t : State}
    (h : execAddReg x y s = .next t) :
    execAddReg x y (s.writeReg r v) = .next (if r ∈ [x, 0xF#4] then t else t.writeReg r v) := by
  obtain rfl := Host.Outcome.next.inj h
  rw [execAddReg, hrx, hry, writeReg_comm s v _ hx]
  refine congrArg Host.Outcome.next ((writeReg_before_writeReg rfl (s.writeReg x _) r 0xF#4 v).trans ?_)
  simp [hx, State.writeFlag]

/-- Settles O23: an instruction's operands do not change, and its writes commute with the one before it. -/
theorem unreadRegisterDoesNotInfluenceAnInstruction : Obligations.UnreadRegisterDoesNotInfluenceAnInstruction := by
  intro i s t r v hr h
  have hread : ∀ y ∈ regsRead i, (s.writeReg r v).readReg y = s.readReg y := fun y hy =>
    readReg_writeReg_of_ne s v fun e => hr (e ▸ hy)
  cases i with
  | ret => exact execRet_writeReg h r v
  | call a => exact execCall_writeReg h r v
  | halt | clear | jump a =>
    obtain rfl := Host.Outcome.next.inj h
    rfl
  | skipEqImm x kk | skipNeqImm x kk | skipEqReg x y =>
    obtain rfl := Host.Outcome.next.inj h
    refine congrArg Host.Outcome.next (skipIf_writeReg ?_ s r v)
    simp [regsRead] at hread
    simp [hread]
  | loadImm x kk =>
    obtain rfl := Host.Outcome.next.inj h
    exact congrArg Host.Outcome.next (writeReg_before_writeReg rfl s r x v)
  | addImm x kk | loadReg x y | orReg x y | andReg x y | xorReg x y =>
    obtain rfl := Host.Outcome.next.inj h
    refine congrArg Host.Outcome.next (writeReg_before_writeReg ?_ s r x v)
    simp [regsRead] at hread
    simp [hread]
  | addReg x y =>
    have hx : r ≠ x := fun e => hr (by simp [regsRead, e])
    exact execAddReg_writeReg s v hx (hread x (by simp [regsRead])) (hread y (by simp [regsRead])) h

end Sys2Proof.Machine
end

section
/-! CanonicalMemory: the canonical form determines a memory by what it reads as (10_state.md R11; log 1). -/

namespace Sys2Proof.Machine

theorem wfFrom_cons_iff {lo b : Nat} {w : Byte} {rest : Memory} :
    Memory.wfFrom lo ((b, w) :: rest) = true ↔
      lo ≤ b ∧ b < Config.memSize ∧ w ≠ Config.unlistedByte ∧ Memory.wfFrom (b + 1) rest = true := by
  simp [Memory.wfFrom, and_assoc]

theorem readByte_cons_self (b : Nat) (w : Byte) (rest : Memory) : Memory.readByte ((b, w) :: rest) b = w := by
  simp [Memory.readByte]

theorem readByte_cons_of_ne {a b : Nat} (w : Byte) (rest : Memory) (h : a ≠ b) :
    Memory.readByte ((b, w) :: rest) a = Memory.readByte rest a := by
  simp [Memory.readByte, h]

/-- The first entry of a canonical list is the lowest address with another byte than the unlisted one. -/
theorem head_le_of_readByte_ne {a b : Nat} {w : Byte} {rest : Memory}
    (hrest : Memory.wfFrom (b + 1) rest = true)
    (hne : Memory.readByte ((b, w) :: rest) a ≠ Config.unlistedByte) : b ≤ a := by
  by_contra hlt
  rw [readByte_cons_of_ne w rest (by omega)] at hne
  exact hne (readByte_below hrest (by omega))

/-- Canonical lists over any lower bounds that read alike everywhere are equal. -/
theorem eq_of_reads_eq {m m' : Memory} {lo lo' : Nat} (h : Memory.wfFrom lo m = true)
    (h' : Memory.wfFrom lo' m' = true) (heq : ∀ a, m.readByte a = m'.readByte a) : m = m' := by
  induction m generalizing lo lo' m' with
  | nil =>
    cases m' with
    | nil => rfl
    | cons c' rest' =>
      obtain ⟨b', w'⟩ := c'
      obtain ⟨-, -, hw', -⟩ := wfFrom_cons_iff.1 h'
      exact absurd ((heq b').trans (readByte_cons_self b' w' rest')).symm hw'
  | cons c rest ih =>
    obtain ⟨b, w⟩ := c
    obtain ⟨-, -, hw, hrest⟩ := wfFrom_cons_iff.1 h
    cases m' with
    | nil => exact absurd ((readByte_cons_self b w rest).symm.trans (heq b)) hw
    | cons c' rest' =>
      obtain ⟨b', w'⟩ := c'
      obtain ⟨-, -, hw', hrest'⟩ := wfFrom_cons_iff.1 h'
      have hle : b' ≤ b := head_le_of_readByte_ne hrest' (by rwa [← heq b, readByte_cons_self])
      have hge : b ≤ b' := head_le_of_readByte_ne hrest (by rwa [heq b', readByte_cons_self])
      obtain rfl : b = b' := by omega
      obtain rfl : w = w' := by simpa [readByte_cons_self] using heq b
      have htail : ∀ a, Memory.readByte rest a = Memory.readByte rest' a := fun a => by
        by_cases hab : a = b
        · rw [readByte_below hrest (by omega), readByte_below hrest' (by omega)]
        · simpa only [readByte_cons_of_ne w _ hab] using heq a
      rw [ih hrest hrest' htail]

/-- Settles O11: canonical memories are canonical lists over the bound 0. -/
theorem memoriesThatReadAlikeAreEqual : Obligations.MemoriesThatReadAlikeAreEqual :=
  fun _ _ => eq_of_reads_eq

end Sys2Proof.Machine
end

section
/-! PartsCompose: the five parts and run control of 10_state.md R31 to R37, wired together. -/

namespace Sys2Proof.Machine

/-! ## The transaction of a fetched word -/

/-- What the register file, the controller and run control commit when the word `op` was fetched and alu_and_semantics
answers `e` (R34, R36, R37). -/
def commit (s : State) (op : Opcode) (e : AluOut) : State :=
  let k := controller s.pc s.stack s.sp true e.cmd
  let r := runControl s.status s.faultCause s.faultValue
    { halt := e.halt, fetchFault := false, fetchFaultAddr := some 0x1000#16, unsupported := e.unsupported,
      opcode := some op, stackOverflow := k.stackOverflow, stackUnderflow := k.stackUnderflow }
  { mem := s.mem, pc := k.pc, regs := regFile s.regs e.wEn (fieldX op) e.wData e.fEn e.fBit, stack := k.stack,
    sp := k.sp, status := r.1, faultCause := r.2.1, faultValue := r.2.2 }

/-- What alu_and_semantics answers for the word `op` with the decoder and the read ports wired to it (R33 to R35). -/
def aluOfWord (s : State) (op : Opcode) : AluOut :=
  alu (kindOf op) (s.readReg (fieldX op)) (s.readReg (fieldY op)) (fieldKK op) (fieldAddr op)

theorem fetchUnit_of_fetch {s : State} {op : Opcode} (hrun : s.status = .running) (hop : fetch s = .ok op) :
    fetchUnit (runEnable s.status) s.pc s.mem =
      { memAddr0 := some (s.pc.extractLsb' 0 12), memAddr1 := some (s.pc.extractLsb' 0 12 + 1#12),
        opcode := some op, opcodeValid := true, pcAdvance := true, fetchFault := false,
        fetchFaultAddr := some 0x1000#16 } := by
  obtain ⟨hle, rfl⟩ := fetch_ok hop
  rw [hrun]
  exact fetchUnit_fetches s.mem hle

theorem fetchUnit_of_fetch_error {s : State} {f : Fatal} (hrun : s.status = .running) (hf : fetch s = .error f) :
    fetchUnit (runEnable s.status) s.pc s.mem =
      { FetchOut.off with fetchFault := true, fetchFaultAddr := some f.value } := by
  obtain ⟨hlt, rfl⟩ := fetch_error hf
  rw [hrun]
  exact fetchUnit_faults s.mem hlt

theorem fetchUnit_of_not_running {s : State} (h : s.status ≠ .running) :
    fetchUnit (runEnable s.status) s.pc s.mem = FetchOut.off := by
  have hoff : runEnable s.status = false := by simp [runEnable, h]
  rw [hoff]
  exact fetchUnit_off s.pc s.mem

theorem aluOfStep_of_fetch {s : State} {op : Opcode} (hrun : s.status = .running) (hop : fetch s = .ok op) :
    aluOfStep s = aluOfWord s op := by
  rw [aluOfStep, fetchUnit_of_fetch hrun hop]
  rfl

theorem aluOfStep_of_fetch_error {s : State} {f : Fatal} (hrun : s.status = .running) (hf : fetch s = .error f) :
    aluOfStep s = AluOut.quiet := by
  rw [aluOfStep, fetchUnit_of_fetch_error hrun hf]
  rfl

theorem aluOfStep_of_not_running {s : State} (h : s.status ≠ .running) : aluOfStep s = AluOut.quiet := by
  rw [aluOfStep, fetchUnit_of_not_running h]
  rfl

theorem stepByParts_of_fetch {s : State} {op : Opcode} (hrun : s.status = .running) (hop : fetch s = .ok op) :
    stepByParts s = commit s op (aluOfWord s op) := by
  rw [stepByParts, aluOfStep_of_fetch hrun hop, fetchUnit_of_fetch hrun hop]
  rfl

theorem stepByParts_of_fetch_error {s : State} {f : Fatal} (hrun : s.status = .running) (hf : fetch s = .error f) :
    stepByParts s = raise f s := by
  rw [stepByParts, aluOfStep_of_fetch_error hrun hf, fetchUnit_of_fetch_error hrun hf]
  obtain ⟨-, rfl⟩ := fetch_error hf
  rfl

theorem stepByParts_of_not_running {s : State} (h : s.status ≠ .running) : stepByParts s = s := by
  rw [stepByParts, aluOfStep_of_not_running h, fetchUnit_of_not_running h]
  rfl

/-! ## What is committed for each command -/

theorem commit_pop (s : State) (op : Opcode) :
    execRet s.bumpPc = .next (commit s op { AluOut.quiet with cmd := .pop }) := by
  rcases execRet_cases s.bumpPc with ⟨hk, he⟩ | ⟨h0, he⟩ <;> rw [he, commit] <;> rw [bumpPc_sp] at *
  · simp only [controller, dif_pos hk]
    rfl
  · simp only [controller, dif_neg (Nat.not_lt.2 h0.le)]
    rfl

theorem commit_pushLoad (s : State) (op : Opcode) (a : Target) :
    execCall a s.bumpPc = .next (commit s op { AluOut.quiet with cmd := .pushLoad a }) := by
  rcases execCall_cases a s.bumpPc with ⟨hk, he⟩ | ⟨h16, he⟩ <;> rw [he, commit] <;> rw [bumpPc_sp] at *
  · simp only [controller, dif_pos hk]
    rfl
  · simp only [controller, dif_neg (Nat.not_lt.2 h16.ge)]
    rfl

theorem commit_skip (s : State) (op : Opcode) (c : Bool) :
    commit s op { AluOut.quiet with cmd := if c then .skip else .none } = skipIf c s.bumpPc := by
  cases c <;> rfl

theorem commit_skip_not (s : State) (op : Opcode) (c : Bool) :
    commit s op { AluOut.quiet with cmd := if c then .none else .skip } = skipIf (!c) s.bumpPc := by
  cases c <;> rfl

theorem commit_write (s : State) (op : Opcode) (w : Byte) :
    commit s op { AluOut.quiet with wEn := true, wData := w } = s.bumpPc.writeReg (fieldX op) w := rfl

theorem commit_write_flag (s : State) (op : Opcode) (w : Byte) (b : Bool) :
    commit s op { AluOut.quiet with wEn := true, wData := w, fEn := true, fBit := b } =
      (s.bumpPc.writeReg (fieldX op) w).writeFlag b := rfl

/-- For every word the parts commit what the step does with it. -/
theorem dispatch_eq_commit (s : State) (op : Opcode) :
    dispatch op s.bumpPc = .next (commit s op (aluOfWord s op)) := by
  cases hk : kindOf op <;> simp only [dispatch, decodeWord, aluOfWord, hk]
  case ret => exact commit_pop s op
  case call => exact commit_pushLoad s op (fieldAddr op)
  case skipEqImm => exact congrArg Host.Outcome.next (commit_skip s op _).symm
  case skipNeqImm => exact congrArg Host.Outcome.next (commit_skip_not s op _).symm
  case skipEqReg => exact congrArg Host.Outcome.next (commit_skip s op _).symm
  all_goals rfl

/-- Settles O54: outside Running nothing is driven; a failed fetch is the fetch_unit's fault; a word is committed as it
is dispatched. -/
theorem fivePartsComposeToTheStep : Obligations.FivePartsComposeToTheStep := by
  refine ⟨fun s hrun => ?_, fun s => stepByParts_of_not_running⟩
  cases hf : fetch s with
  | error f => rw [step_of_fetch_error hrun hf, stepByParts_of_fetch_error hrun hf]
  | ok op =>
    rw [stepByParts_of_fetch hrun hf, ← dispatch_eq_commit]
    simp [step, hrun, hf]

/-! ## The fault signals -/

/-- An instruction that drives a register port gives no command to the controller, and is supported (R35). -/
theorem alu_ports_off_or_no_command (k : Kind) (a b kk : Byte) (addr : Target) :
    ((alu k a b kk addr).wEn = false ∧ (alu k a b kk addr).fEn = false) ∨
    ((alu k a b kk addr).unsupported = false ∧ (alu k a b kk addr).cmd = .none) := by
  cases k with
  | halt | clear | ret | jump | call | skipEqImm | skipNeqImm | skipEqReg | unsupported => exact .inl ⟨rfl, rfl⟩
  | loadImm | addImm | loadReg | orReg | andReg | xorReg | addReg => exact .inr ⟨rfl, rfl⟩

theorem alu_cmd_of_unsupported {k : Kind} {a b kk : Byte} {addr : Target}
    (h : (alu k a b kk addr).unsupported = true) : (alu k a b kk addr).cmd = .none := by
  cases k with
  | unsupported => rfl
  | _ => exact absurd h Bool.false_ne_true

theorem controller_signals_le_one (pc : Addr) (stack : Vector Addr 16) (sp : Fin 17) (adv : Bool) (cmd : Cmd) :
    (controller pc stack sp adv cmd).stackOverflow.toNat + (controller pc stack sp adv cmd).stackUnderflow.toNat ≤ 1 := by
  cases cmd with
  | none | load a | skip => exact Nat.zero_le 1
  | pushLoad a => by_cases h : sp.val < 16 <;> simp [controller, h]
  | pop => by_cases h : 0 < sp.val <;> simp [controller, h]

/-- The statement of R37 and R155 for the signals of a word: its three fault signals exclude the register ports and one
another. -/
theorem word_signals (pc : Addr) (stack : Vector Addr 16) (sp : Fin 17) (adv : Bool) (kind : Kind) (a b kk : Byte)
    (addr : Target) :
    let e := alu kind a b kk addr
    let k := controller pc stack sp adv e.cmd
    ((e.unsupported || k.stackOverflow || k.stackUnderflow) = true → e.wEn = false ∧ e.fEn = false) ∧
    e.unsupported.toNat + k.stackOverflow.toNat + k.stackUnderflow.toNat ≤ 1 := by
  intro e k
  constructor
  · intro h
    rcases alu_ports_off_or_no_command kind a b kk addr with hoff | ⟨hu, hc⟩
    · exact hoff
    · have hk : k = controller pc stack sp adv .none := congrArg (controller pc stack sp adv) hc
      rw [show e.unsupported = false from hu, hk] at h
      exact absurd h Bool.false_ne_true
  · cases hu : e.unsupported with
    | false =>
      have := controller_signals_le_one pc stack sp adv e.cmd
      rw [Bool.toNat_false, Nat.zero_add]
      exact this
    | true =>
      have hk : k = controller pc stack sp adv .none := congrArg (controller pc stack sp adv) (alu_cmd_of_unsupported hu)
      rw [hk]
      exact le_rfl

/-- Settles O55: with no word only the fetch_unit can assert a signal; with a word only the other three can. -/
theorem faultSignalsExcludeRegisterWritesAndEachOther :
    Obligations.FaultSignalsExcludeRegisterWritesAndEachOther := by
  intro s
  by_cases hrun : s.status = .running
  · cases hf : fetch s with
    | error f =>
      simp only [fetchUnit_of_fetch_error hrun hf, aluOfStep_of_fetch_error hrun hf]
      exact ⟨fun _ => ⟨rfl, rfl⟩, le_rfl⟩
    | ok op =>
      simp only [fetchUnit_of_fetch hrun hf, aluOfStep_of_fetch hrun hf, Bool.false_or, Bool.toNat_false, Nat.zero_add]
      exact word_signals s.pc s.stack s.sp true _ _ _ _ _
  · simp only [fetchUnit_of_not_running hrun, aluOfStep_of_not_running hrun]
    exact ⟨fun _ => ⟨rfl, rfl⟩, Nat.zero_le _⟩

end Sys2Proof.Machine
end

section
/-! MemoryUnit: the bounds check of a one-byte read (20_memory.md R43), and that a run leaves memory alone (R41). -/

namespace Sys2Proof.Machine

/-- Settles O9: the two ranges of addresses are the two branches of the bounds check. -/
theorem oneByteReadIsBoundsCheckedAndNeverWraps : Obligations.OneByteReadIsBoundsCheckedAndNeverWraps :=
  fun _ _ => ⟨fun hin => if_neg (Nat.not_lt.2 hin), fun hout => if_pos hout⟩

/-- What holds at the start of a run and is kept by every step holds after any number of steps (40_fetch_and_step.md R88). -/
theorem runLoop_invariant {P : State → Prop} (hstep : ∀ s t, step s = .next t → P s → P t) (n : Nat) (s : State)
    (hs : P s) : P (runLoop n s) := by
  induction n generalizing s with
  | zero => exact hs
  | succ n ih =>
    rw [runLoop]
    split
    · next t h => exact ih t (hstep s t h hs)
    · exact hs
    · exact hs

theorem runLoop_mem (n : Nat) (s : State) : (runLoop n s).mem = s.mem :=
  runLoop_invariant (P := fun t => t.mem = s.mem) (fun _ _ h hm => (step_mem h).trans hm) n s rfl

/-- Settles O21: memory is kept as data, so every byte of it reads the same. -/
theorem runLeavesMemoryAsItWas : Obligations.RunLeavesMemoryAsItWas :=
  fun n s => ⟨fun a => congrArg (Memory.readByte · a) (runLoop_mem n s), runLoop_mem n s⟩

end Sys2Proof.Machine
end

section
/-! Encoding: the fields of a word, the opcode table, and the decoder, encoder and spelling as inverses of one another
(30_encoding.md R62 to R74). -/

namespace Sys2Proof

/-! ## Decoding what was encoded (R74) -/

theorem kindOf_encode (i : Instr) : kindOf (encode i) = i.kind :=
  match i with
  | .halt => Laws.EncodeRow.halt
  | .clear => Laws.EncodeRow.clear
  | .ret => Laws.EncodeRow.ret
  | .jump a => Laws.EncodeRow.jump a
  | .call a => Laws.EncodeRow.call a
  | .skipEqImm x kk => Laws.EncodeRow.skipEqImm x kk
  | .skipNeqImm x kk => Laws.EncodeRow.skipNeqImm x kk
  | .skipEqReg x y => Laws.EncodeRow.skipEqReg x y
  | .loadImm x kk => Laws.EncodeRow.loadImm x kk
  | .addImm x kk => Laws.EncodeRow.addImm x kk
  | .loadReg x y => Laws.EncodeRow.loadReg x y
  | .orReg x y => Laws.EncodeRow.orReg x y
  | .andReg x y => Laws.EncodeRow.andReg x y
  | .xorReg x y => Laws.EncodeRow.xorReg x y
  | .addReg x y => Laws.EncodeRow.addReg x y

theorem decodeWord_encode (i : Instr) : decodeWord (encode i) = .ok i := by
  rw [decodeWord, kindOf_encode]
  cases i with
  | halt | clear | ret => rfl
  | jump | call => simp only [Instr.kind, encode, fieldAddr_formatA]
  | skipEqImm | skipNeqImm | loadImm | addImm =>
    simp only [Instr.kind, encode, fieldX_formatXK, fieldKK_formatXK]
  | skipEqReg | loadReg | orReg | andReg | xorReg | addReg =>
    simp only [Instr.kind, encode, fieldX_formatXY, fieldY_formatXY]

/-- The bytes of a word are decoded as the word is. -/
theorem decodeBytes_of_decodeWord {op : Opcode} {i : Instr} (h : decodeWord op = .ok i) (rest : List Byte) :
    decodeBytes (highByte op :: lowByte op :: rest) = .ok (i, rest) := by
  rw [decodeBytes, packWord_bytes, h]

/-- Settles O5: the kind of an encoded word is the instruction's, and the fields of its format are the operands. -/
theorem decodeOfEncodeIsTheInstruction : Obligations.DecodeOfEncodeIsTheInstruction :=
  fun i => ⟨decodeWord_encode i, decodeBytes_of_decodeWord (decodeWord_encode i)⟩

/-- Settles O1: ten of the words are encodings, and the other two have kind UNSUPPORTED. -/
theorem specWordsDecodeToTheirInstructions : Obligations.SpecWordsDecodeToTheirInstructions :=
  ⟨decodeWord_encode .halt, decodeWord_encode .clear, decodeWord_encode .ret,
    decodeWord_encode (.jump 0x234#12), decodeWord_encode (.call 0x345#12),
    decodeWord_encode (.skipEqImm 0xC#4 0x7F#8), decodeWord_encode (.skipNeqImm 0xA#4 0x12#8),
    decodeWord_encode (.skipEqReg 0xA#4 0xB#4), decodeWord_encode (.loadImm 0x0#4 0x2A#8),
    decodeWord_encode (.addReg 0xA#4 0xB#4),
    decodeWord_of_unsupported (by decide), decodeWord_of_unsupported (by decide)⟩

/-! ## Encoding what was decoded (R74) -/

theorem formatA_fieldAddr {op : Opcode} {c : BitVec 4} (hc : op.toNat / 4096 = c.toNat) :
    formatA c (fieldAddr op) = op := by
  apply BitVec.eq_of_toNat_eq
  rw [formatA_toNat, fieldAddr_toNat]
  omega

theorem formatXK_fields {op : Opcode} {c : BitVec 4} (hc : op.toNat / 4096 = c.toNat) :
    formatXK c (fieldX op) (fieldKK op) = op := by
  apply BitVec.eq_of_toNat_eq
  rw [formatXK_toNat, fieldX_toNat, fieldKK_toNat]
  omega

theorem formatXY_fields {op : Opcode} {c d : BitVec 4} (h : op.toNat / 4096 = c.toNat ∧ op.toNat % 16 = d.toNat) :
    formatXY c (fieldX op) (fieldY op) d = op := by
  obtain ⟨hc, hd⟩ := h
  apply BitVec.eq_of_toNat_eq
  rw [formatXY_toNat, fieldX_toNat, fieldY_toNat]
  omega

/-- Settles O6: the kind of the word fixes its class and sub-opcode, and the format puts them back around the fields. -/
theorem encodeOfDecodeIsTheOpcode : Obligations.EncodeOfDecodeIsTheOpcode := by
  intro op i h
  have hn := kindOf_arith op
  rw [decodeWord] at h
  cases hk : kindOf op <;> rw [hk] at h hn <;> cases h
  case halt | clear | ret => exact BitVec.eq_of_toNat_eq hn.symm
  case jump | call => exact formatA_fieldAddr hn
  case skipEqImm | skipNeqImm | loadImm | addImm => exact formatXK_fields hn
  case skipEqReg | loadReg | orReg | andReg | xorReg | addReg => exact formatXY_fields hn

/-- Settles O4: kind UNSUPPORTED, which is what is rejected, is the complement of the opcode map in arithmetic. -/
theorem rejectedWordsAreThoseOutsideTheOpcodeMap : Obligations.RejectedWordsAreThoseOutsideTheOpcodeMap := by
  refine fun op => ⟨Iff.trans ?_ (kindOf_eq_iff op .unsupported), fun r h => (decodeWord_error h).2⟩
  exact ⟨fun ⟨_, h⟩ => (decodeWord_error h).1, fun h => ⟨_, decodeWord_of_unsupported h⟩⟩

/-! ## The encoding table (R74) -/

/-- Format XY with the class and the sub-opcode taken together, as the rows of the table write them. -/
theorem formatXY_toNat_of_base {c d : BitVec 4} {base : Nat} (hb : c.toNat * 4096 + d.toNat = base) (x y : RegIx) :
    (formatXY c x y d).toNat = base + x.toNat * 256 + y.toNat * 16 := by
  rw [formatXY_toNat, ← hb]
  ring

/-- Settles O7: each format is its weighted sum, and a word is its high byte at weight 256 and its low byte. -/
theorem encodedWordsFollowTheEncodingTable : Obligations.EncodedWordsFollowTheEncodingTable := by
  refine ⟨rfl, rfl, rfl, fun a => ?_, fun x kk => ?_, fun x y => ?_, fun i => ⟨_, _, rfl, ?_⟩⟩
  · exact ⟨formatA_toNat 0x1#4 a, formatA_toNat 0x2#4 a⟩
  · exact ⟨formatXK_toNat 0x3#4 x kk, formatXK_toNat 0x4#4 x kk, formatXK_toNat 0x6#4 x kk,
      formatXK_toNat 0x7#4 x kk⟩
  · exact ⟨formatXY_toNat_of_base rfl x y, formatXY_toNat_of_base rfl x y, formatXY_toNat_of_base rfl x y,
      formatXY_toNat_of_base rfl x y, formatXY_toNat_of_base rfl x y, formatXY_toNat_of_base rfl x y⟩
  · rw [← packWord_toNat, packWord_bytes]

/-! ## The fields by the two bytes (R62) -/

theorem byte_halves (b : Byte) : b.extractLsb' 4 4 ++ b.extractLsb' 0 4 = b :=
  BitVec.extractLsb'_append_extractLsb'_eq_extractLsb' (by decide) |>.trans BitVec.extractLsb'_eq_self

theorem packWord_eq_formatXK (b0 b1 : Byte) :
    packWord b0 b1 = formatXK (b0.extractLsb' 4 4) (b0.extractLsb' 0 4) b1 := by
  rw [formatXK, byte_halves, packWord]

theorem packWord_eq_formatXY (b0 b1 : Byte) :
    packWord b0 b1 =
      formatXY (b0.extractLsb' 4 4) (b0.extractLsb' 0 4) (b1.extractLsb' 4 4) (b1.extractLsb' 0 4) := by
  rw [formatXY, byte_halves, byte_halves, packWord]

theorem packWord_eq_formatA (b0 b1 : Byte) :
    packWord b0 b1 = formatA (b0.extractLsb' 4 4) (b0.extractLsb' 0 4 ++ b1) := by
  rw [packWord_eq_formatXK, formatXK, formatA, BitVec.append_assoc, BitVec.cast_eq]

/-- Settles O2: the fields in arithmetic, and two bytes read as a word of each format. -/
theorem fieldsAreShiftsAndMasksOfTheOpcode : Obligations.FieldsAreShiftsAndMasksOfTheOpcode := by
  refine ⟨fun op => ⟨?_, fieldX_toNat op, fieldY_toNat op, fieldD_toNat op, fieldKK_toNat op, fieldAddr_toNat op⟩,
    fun b0 b1 => ⟨?_, ?_, ?_, ?_, ?_, ?_⟩⟩
  · rw [← fieldC_toNat, Nat.mod_eq_of_lt (fieldC op).isLt]
  · rw [packWord_eq_formatXY, fieldC_formatXY]
  · rw [packWord_eq_formatXY, fieldX_formatXY]
  · rw [packWord_eq_formatXY, fieldY_formatXY]
  · rw [packWord_eq_formatXY, fieldD_formatXY]
  · rw [packWord_eq_formatXK, fieldKK_formatXK]
  · rw [packWord_eq_formatA, fieldAddr_formatA]

/-! ## The opcode table (R65, R66) -/

theorem and_FFFF_eq_iff (op v : Opcode) : op &&& 0xFFFF#16 = v ↔ op.toNat = v.toNat := by
  rw [and_FFFF, BitVec.toNat_inj]

theorem and_F000_eq_iff (op v : Opcode) : op &&& 0xF000#16 = v ↔ op.toNat / 4096 * 4096 = v.toNat := by
  rw [← BitVec.toNat_inj, and_F000_toNat]

theorem and_F00F_eq_iff (op v : Opcode) :
    op &&& 0xF00F#16 = v ↔ op.toNat / 4096 * 4096 + op.toNat % 16 = v.toNat := by
  rw [← BitVec.toNat_inj, and_F00F_toNat]

/-- A word matches a row exactly when it lies in the arithmetic range of the row's instruction. -/
theorem matches_iff_kindArith (op : Opcode) {r : Row} (hr : r ∈ opcodeTable) :
    op &&& r.mask = r.value ↔ kindArith r.kind op.toNat := by
  fin_cases hr <;>
    simp only [and_FFFF_eq_iff, and_F000_eq_iff, and_F00F_eq_iff, kindArith, BitVec.toNat_ofNat] <;> omega

theorem matches_iff_kindOf (op : Opcode) {r : Row} (hr : r ∈ opcodeTable) :
    op &&& r.mask = r.value ↔ kindOf op = r.kind :=
  (matches_iff_kindArith op hr).trans (kindOf_eq_iff op r.kind).symm

theorem row_supported : ∀ r ∈ opcodeTable, r.kind ≠ .unsupported := by decide

theorem row_eq_of_kind_eq : ∀ r ∈ opcodeTable, ∀ r' ∈ opcodeTable, r.kind = r'.kind → r = r' := by decide

theorem exists_row_of_kind {k : Kind} (hk : k ≠ .unsupported) : ∃ r ∈ opcodeTable, r.kind = k := by
  cases k
  case unsupported => exact absurd rfl hk
  all_goals decide

/-- Settles O3: matching a row is having its kind; each instruction has one row, and UNSUPPORTED has none. -/
theorem kindIsTheOneMatchingRowOfTheOpcodeTable : Obligations.KindIsTheOneMatchingRowOfTheOpcodeTable := by
  refine ⟨fun op r hr => matches_iff_kindOf op hr, fun op => ⟨fun hk r hr hm => ?_, fun hnone => ?_⟩,
    fun op r hr r' hr' hm hm' => ?_⟩
  · rw [matches_iff_kindOf op hr, hk] at hm
    exact row_supported r hr hm.symm
  · by_contra hk
    obtain ⟨r, hr, hrk⟩ := exists_row_of_kind hk
    exact hnone r hr ((matches_iff_kindOf op hr).2 hrk.symm)
  · rw [matches_iff_kindOf op hr] at hm
    rw [matches_iff_kindOf op hr'] at hm'
    exact row_eq_of_kind_eq r hr r' hr' (hm.symm.trans hm')

/-! ## Spellings (R63, R72) -/

theorem operandsFit_z_iff {l : List Nat} : Format.z.operandsFit l = true ↔ l = [] := by
  cases l <;> simp [Format.operandsFit]

theorem operandsFit_a_iff {l : List Nat} : Format.a.operandsFit l = true ↔ ∃ a : Target, l = [a.toNat] := by
  constructor
  · intro h
    match l, h with
    | [a], h => exact ⟨BitVec.ofNatLT a (of_decide_eq_true h), rfl⟩
  · rintro ⟨a, rfl⟩
    exact decide_eq_true a.isLt

theorem operandsFit_xk_iff {l : List Nat} :
    Format.xk.operandsFit l = true ↔ ∃ (x : RegIx) (kk : Byte), l = [x.toNat, kk.toNat] := by
  constructor
  · intro h
    match l, h with
    | [x, kk], h =>
      obtain ⟨hx, hkk⟩ : x < 16 ∧ kk < 256 := by simpa [Format.operandsFit] using h
      exact ⟨BitVec.ofNatLT x hx, BitVec.ofNatLT kk hkk, rfl⟩
  · rintro ⟨x, kk, rfl⟩
    simp [Format.operandsFit, x.isLt, kk.isLt]

theorem operandsFit_xy_iff {l : List Nat} :
    Format.xy.operandsFit l = true ↔ ∃ x y : RegIx, l = [x.toNat, y.toNat] := by
  constructor
  · intro h
    match l, h with
    | [x, y], h =>
      obtain ⟨hx, hy⟩ : x < 16 ∧ y < 16 := by simpa [Format.operandsFit] using h
      exact ⟨BitVec.ofNatLT x hx, BitVec.ofNatLT y hy, rfl⟩
  · rintro ⟨x, y, rfl⟩
    simp [Format.operandsFit, x.isLt, y.isLt]

theorem wellFormed_spelling (i : Instr) : i.spelling.wellFormed = true := by
  cases i with
  | halt | clear | ret => rfl
  | jump a | call a => exact operandsFit_a_iff.2 ⟨a, rfl⟩
  | skipEqImm x kk | skipNeqImm x kk | loadImm x kk | addImm x kk => exact operandsFit_xk_iff.2 ⟨x, kk, rfl⟩
  | skipEqReg x y | loadReg x y | orReg x y | andReg x y | xorReg x y | addReg x y =>
    exact operandsFit_xy_iff.2 ⟨x, y, rfl⟩

theorem toInstr_spelling (i : Instr) : i.spelling.toInstr = some i := by
  rw [Spelling.toInstr, if_pos (wellFormed_spelling i)]
  cases i <;> simp [Instr.spelling, Instr.kind]

theorem wellFormed_of_toInstr {p : Spelling} {i : Instr} (h : p.toInstr = some i) : p.wellFormed = true := by
  by_contra hp
  rw [Spelling.toInstr, if_neg hp] at h
  cases h

/-- A well-formed spelling stands for an instruction, and is that instruction's spelling. -/
theorem toInstr_of_wellFormed {p : Spelling} (h : p.wellFormed = true) :
    ∃ i : Instr, p.toInstr = some i ∧ i.spelling = p := by
  obtain ⟨k, l⟩ := p
  cases k
  case halt | clear | ret =>
    obtain rfl := operandsFit_z_iff.1 h
    exact ⟨_, if_pos h, rfl⟩
  case jump | call =>
    obtain ⟨a, rfl⟩ := operandsFit_a_iff.1 h
    exact ⟨_, if_pos h, by simp [Instr.spelling, Instr.kind]⟩
  case skipEqImm | skipNeqImm | loadImm | addImm =>
    obtain ⟨x, kk, rfl⟩ := operandsFit_xk_iff.1 h
    exact ⟨_, if_pos h, by simp [Instr.spelling, Instr.kind]⟩
  case skipEqReg | loadReg | orReg | andReg | xorReg | addReg =>
    obtain ⟨x, y, rfl⟩ := operandsFit_xy_iff.1 h
    exact ⟨_, if_pos h, by simp [Instr.spelling, Instr.kind]⟩
  case unsupported => cases h

/-- Settles O8: every well-formed spelling is the spelling of an instruction, and the spelling determines it. -/
theorem wellFormedSpellingsAreExactlyTheInstructions : Obligations.WellFormedSpellingsAreExactlyTheInstructions := by
  refine ⟨fun i => ⟨wellFormed_spelling i, toInstr_spelling i⟩, fun p => ⟨?_, fun hp => ?_⟩, fun p i h => ?_⟩
  · rintro ⟨i, h⟩
    exact wellFormed_of_toInstr h
  · obtain ⟨i, hi, -⟩ := toInstr_of_wellFormed hp
    exact ⟨i, hi⟩
  · obtain ⟨j, hj, rfl⟩ := toInstr_of_wellFormed (wellFormed_of_toInstr h)
    obtain rfl : i = j := Option.some.inj (h.symm.trans hj)
    exact ⟨rfl, rfl⟩

end Sys2Proof
end

section
/-! FetchStep: what a fetch gives at each address, when a step exists, and the step of a word in memory or placed there
(40_fetch_and_step.md R80 to R87; 70_reset_and_hazards.md R181). -/

namespace Sys2Proof.Machine

/-! ## The fetch (R81 to R83) -/

theorem highByte_packWord (b0 b1 : Byte) : highByte (packWord b0 b1) = b0 := by
  apply BitVec.eq_of_toNat_eq
  have := b1.isLt
  rw [highByte_toNat, packWord_toNat]
  omega

theorem lowByte_packWord (b0 b1 : Byte) : lowByte (packWord b0 b1) = b1 := by
  apply BitVec.eq_of_toNat_eq
  have := b1.isLt
  rw [lowByte_toNat, packWord_toNat]
  omega

/-- Settles O10: the fetch packs the two bytes, and packing them loses neither. -/
theorem fetchPacksTheTwoBytesAtPcBigEndian : Obligations.FetchPacksTheTwoBytesAtPcBigEndian :=
  fun _ hle => ⟨_, fetch_of_le hle, packWord_toNat _ _, highByte_packWord _ _, lowByte_packWord _ _⟩

/-- A fetch above 0x0FFE fails with the lowest out-of-range address. -/
theorem fetch_of_gt {s : State} (h : 0x0FFE < s.pc.toNat) :
    fetch s = .error (.memoryOutOfBounds (if 0x0FFF < s.pc.toNat then s.pc else 0x1000#16)) := by
  cases hf : fetch s with
  | ok op => exact absurd (fetch_ok hf).1 (Nat.not_le.2 h)
  | error f => rw [(fetch_error hf).2]

/-- The lowest address outside memory that a fetch above 0x0FFE would touch, in arithmetic. -/
theorem lowestOutOfRange_toNat {pc : Addr} (h : 0x0FFE < pc.toNat) :
    (if 0x0FFF < pc.toNat then pc else 0x1000#16).toNat = max pc.toNat 0x1000 := by
  split_ifs with hgt
  · omega
  · rw [BitVec.toNat_ofNat]
    omega

/-- Settles O12: the step is the fetch's fault, raised where `pc` stands. -/
theorem fetchOutsideMemoryFaultsWithoutAdvancing : Obligations.FetchOutsideMemoryFaultsWithoutAdvancing := by
  intro s hrun hgt
  refine ⟨_, step_of_fetch_error hrun (fetch_of_gt hgt), rfl, rfl, lowestOutOfRange_toNat hgt, rfl, ?_⟩
  exact ⟨raise_readReg _ s, ⟨rfl, fun _ => rfl⟩, fun _ => rfl⟩

/-! ## When a step exists (R80; D23) -/

theorem step_of_not_running {s : State} (h : s.status ≠ .running) : step s = .fault (.noStep s.status) := by
  cases hst : s.status with
  | running => exact absurd hst h
  | idle | halted | faulted => simp only [step, hst]

/-- Settles O16: a running core always has a next state, the one its parts compose to, and no other core has one. -/
theorem stepExistsExactlyWhileRunning : Obligations.StepExistsExactlyWhileRunning :=
  fun s => ⟨⟨fun ⟨_, h⟩ => (step_cases h).1, fun hrun => ⟨_, fivePartsComposeToTheStep.1 s hrun⟩⟩,
    step_of_not_running⟩

/-! ## The step of a word in memory (R84 to R87) -/

/-- Two bytes decode to an instruction as the word they pack to does. -/
theorem decodeWord_packWord_of_decodeBytes {b0 b1 : Byte} {i : Instr} {rest : List Byte}
    (h : decodeBytes [b0, b1] = .ok (i, rest)) : decodeWord (packWord b0 b1) = .ok i := by
  rw [decodeBytes] at h
  split at h
  · next j hj =>
    cases h
    exact hj
  · cases h

/-- Settles O13: the bytes that decode are the word that the fetch packs. -/
theorem stepExecutesTheDecodedInstruction : Obligations.StepExecutesTheDecodedInstruction := by
  intro s i hrun hle hd
  exact ⟨step_of_decoded hrun (fetch_of_le hle) (decodeWord_packWord_of_decodeBytes hd), bump_toNat (by omega)⟩

/-! ## The step of a placed word (70_reset_and_hazards.md R181; log 5, log 20) -/

theorem withFetchWord_pc (s : State) (nbits w : Nat) : (s.withFetchWord nbits w).pc = fetchableAddr s.pc := rfl

theorem fetchableAddr_of_le {pc : Addr} (h : pc.toNat ≤ 0x0FFE) : fetchableAddr pc = pc := if_pos h

theorem withFetchWord_mem (s : State) (op : Opcode) :
    (s.withFetchWord 16 op.toNat).mem = s.mem.writeWord (fetchableAddr s.pc).toNat op := by
  rw [State.withFetchWord, Nat.mod_eq_of_lt op.isLt, BitVec.ofNat_toNat, BitVec.setWidth_eq]

/-- The placed word is the one that is fetched. -/
theorem fetch_withFetchWord {s : State} (hwf : s.mem.wf = true) (op : Opcode) :
    fetch (s.withFetchWord 16 op.toNat) = .ok op := by
  have hread := readByte_writeWord hwf op (fetchableAddr_le s.pc)
  rw [fetch_of_le (fetchableAddr_le s.pc), withFetchWord_mem, withFetchWord_pc, hread, hread]
  simp [packWord_bytes]

/-- Settles O14: the placed word is fetched and decodes to its instruction; the two bytes are the only ones written. -/
theorem placedWordIsRunByTheNextStep : Obligations.PlacedWordIsRunByTheNextStep := by
  intro s i hwf
  have hop := fetch_withFetchWord hwf (encode i)
  refine ⟨⟨(s.withFetchWord 16 (encode i).toNat).bumpPc, step_of_decoded rfl hop (decodeWord_encode i), rfl,
      (bumpPc_pc_toNat_of_fetch hop).1⟩, fetchableAddr_of_le, fun _ => rfl, ⟨rfl, fun _ => rfl⟩, ⟨rfl, rfl⟩, ?_, ?_⟩
  · rw [withFetchWord_mem]
    exact wf_writeWord hwf _ (fetchableAddr_le s.pc)
  · intro b hb hb1
    rw [withFetchWord_pc] at hb hb1
    rw [withFetchWord_mem, readByte_writeWord hwf _ (fetchableAddr_le s.pc), if_neg hb1, if_neg hb]

end Sys2Proof.Machine
end

section
/-! RunEnd: what ends a run, and that an ended run stays ended (40_fetch_and_step.md R88, R89; 60_exceptions.md R150,
R155). -/

namespace Sys2Proof.Machine

/-! ## HALT -/

/-- HALT, and no other instruction, ends a run as Halted. -/
theorem exec_halted_iff {i : Instr} {s t : State} (hrun : s.status = .running) (h : exec i s = .next t) :
    t.status = .halted ↔ i = .halt := by
  constructor
  · intro hst
    rcases exec_cases i s with ⟨p, he, -⟩ | ⟨x, v, he, -⟩ | ⟨x, y, -, he⟩ | ⟨hi, -⟩ | ⟨hk, -, he⟩ | ⟨a, hk, -, he⟩ |
      ⟨-, -, he⟩ | ⟨a, -, -, he⟩
    case inr.inr.inr.inl => exact hi
    all_goals
      obtain rfl := Host.Outcome.next.inj (he.symm.trans h)
      simp [hrun] at hst
  · rintro rfl
    obtain rfl := Host.Outcome.next.inj h
    rfl

theorem decodeWord_eq_halt_iff (op : Opcode) : decodeWord op = .ok .halt ↔ op = 0x0000#16 :=
  ⟨fun h => (encodeOfDecodeIsTheOpcode op .halt h).symm, fun h => h ▸ decodeWord_encode .halt⟩

theorem step_halted_iff {s t : State} (h : step s = .next t) : t.status = .halted ↔ fetch s = .ok 0x0000#16 := by
  obtain ⟨hrun, ⟨f, hf, rfl⟩ | ⟨op, hop, ⟨hk, rfl⟩ | ⟨i, hi, -, he⟩⟩⟩ := step_cases h
  · simp [hf]
  · have hne : op ≠ 0x0000#16 := by
      rintro rfl
      exact absurd hk (by decide)
    simp [hop, hne]
  · rw [exec_halted_iff (s := s.bumpPc) hrun he, hop, Except.ok.injEq, ← decodeWord_eq_halt_iff, hi, Except.ok.injEq]

/-! ## The four faults -/

/-- Under a fatal condition the step raises that condition's fault. -/
theorem step_of_fatalIn {s : State} {f : Fatal} (hrun : s.status = .running) (hf : FatalIn s f) :
    ∃ u, step s = .next (raise f u) := by
  rcases hf with ⟨hgt, rfl⟩ | ⟨op, hop, ⟨hk, rfl⟩ | ⟨hk, h16, rfl⟩ | ⟨hk, h0, rfl⟩⟩
  · exact ⟨s, step_of_fetch_error hrun (fetch_of_gt hgt)⟩
  · exact ⟨s.bumpPc, step_of_unsupported hrun hop hk⟩
  · have hi : decodeWord op = .ok (.call (fieldAddr op)) := by rw [decodeWord, hk]
    rw [step_of_decoded hrun hop hi]
    rcases execCall_cases (fieldAddr op) s.bumpPc with ⟨hlt, -⟩ | ⟨-, he⟩
    · exact absurd h16 hlt.ne
    · exact ⟨s.bumpPc, he⟩
  · have hi : decodeWord op = .ok .ret := by rw [decodeWord, hk]
    rw [step_of_decoded hrun hop hi]
    rcases execRet_cases s.bumpPc with ⟨hpos, -⟩ | ⟨-, he⟩
    · exact absurd h0 hpos.ne'
    · exact ⟨s.bumpPc, he⟩

/-- A cause and a value name one fault. -/
theorem Fatal.eq_of_record_eq {f f' : Fatal} (hc : f.cause = f'.cause) (hv : f.value = f'.value) : f = f' := by
  cases f <;> cases f' <;> cases hc
  · exact congrArg Fatal.unsupportedOpcode hv
  · rfl
  · rfl
  · exact congrArg Fatal.memoryOutOfBounds hv

/-- Settles O17: the step raises the fault of a condition that holds, so the record it leaves names the one that did. -/
theorem runEndsOnlyAtHaltOrAtOneOfTheFourFaults : Obligations.RunEndsOnlyAtHaltOrAtOneOfTheFourFaults := by
  intro s t hrun h
  have hraise : ∀ f, FatalIn s f → ∃ u, t = raise f u := fun f hf => by
    obtain ⟨u, hu⟩ := step_of_fatalIn hrun hf
    exact ⟨u, Host.Outcome.next.inj (h.symm.trans hu)⟩
  have hrecord : ∀ f, FatalIn s f → t.faultCause = f.cause ∧ t.faultValue = f.value := fun f hf => by
    obtain ⟨u, rfl⟩ := hraise f hf
    exact ⟨rfl, rfl⟩
  refine ⟨step_halted_iff h, ⟨fun hst => ?_, fun ⟨f, hf⟩ => ?_⟩, hrecord, fun f f' hf hf' => ?_, step_not_idle h⟩
  · rcases step_run_cases h with ⟨hst' | hst', -⟩ | ⟨f, -, hf, -⟩
    · simp [hst'] at hst
    · simp [hst'] at hst
    · exact ⟨f, hf⟩
  · obtain ⟨u, rfl⟩ := hraise f hf
    rfl
  · obtain ⟨hc, hv⟩ := hrecord f hf
    obtain ⟨hc', hv'⟩ := hrecord f' hf'
    exact Fatal.eq_of_record_eq (hc.symm.trans hc') (hv.symm.trans hv')

/-! ## The run loop -/

theorem runLoop_succ_of_step {s t : State} (h : step s = .next t) (n : Nat) : runLoop (n + 1) s = runLoop n t := by
  rw [runLoop, h]

theorem runLoop_of_not_running {s : State} (h : s.status ≠ .running) (n : Nat) : runLoop n s = s := by
  cases n with
  | zero => rfl
  | succ n => rw [runLoop, step_of_not_running h]

/-- Fuel for `n` steps and then for `m` more is fuel for `n + m`. -/
theorem runLoop_add (n m : Nat) (s : State) : runLoop (n + m) s = runLoop m (runLoop n s) := by
  induction n generalizing s with
  | zero => rw [Nat.zero_add, runLoop]
  | succ n ih =>
    by_cases hrun : s.status = .running
    · obtain ⟨t, ht⟩ := (stepExistsExactlyWhileRunning s).1.2 hrun
      rw [Nat.add_right_comm, runLoop_succ_of_step ht, runLoop_succ_of_step ht, ih]
    · simp only [runLoop_of_not_running hrun]

theorem ended_iff (s : State) : s.ended = true ↔ s.status ≠ .running ∧ s.status ≠ .idle := by
  cases hst : s.status <;> simp [State.ended, hst]

/-- Settles O53: a state that is not Running takes no further step, and no step leads to Idle. -/
theorem endedRunStaysWhereItEnded : Obligations.EndedRunStaysWhereItEnded := by
  refine fun n m s hend => ⟨?_, fun hrun => (ended_iff _).2 ⟨hend, ?_⟩⟩
  · rw [runLoop_add, runLoop_of_not_running hend]
  · exact runLoop_invariant (P := fun t => t.status ≠ .idle) (fun _ _ h _ => step_not_idle h) n s (by simp [hrun])

end Sys2Proof.Machine
end

section
/-! System: HALT and CLEAR, the instructions of 41_system.md. -/

namespace Sys2Proof.Machine

/-- The word of an instruction, and no other, decodes to it (30_encoding.md R74 in both directions). -/
theorem decodeWord_eq_ok_iff (op : Opcode) (i : Instr) : decodeWord op = .ok i ↔ op = encode i :=
  ⟨fun h => (encodeOfDecodeIsTheOpcode op i h).symm, fun h => h ▸ decodeWord_encode i⟩

/-- The word of an instruction executes it in the advanced state. -/
theorem step_of_fetch_encode {s : State} {i : Instr} (hrun : s.status = .running) (hop : fetch s = .ok (encode i)) :
    step s = exec i s.bumpPc :=
  step_of_decoded hrun hop (decodeWord_encode i)

/-- The advance changes nothing but `pc`. -/
theorem bumpPc_frame (s : State) : SameRegs s s.bumpPc ∧ SameButRegsAndPc s s.bumpPc :=
  ⟨bumpPc_readReg s, ⟨bumpPc_sp s, fun _ => rfl⟩, bumpPc_status s, ⟨bumpPc_faultCause s, bumpPc_faultValue s⟩,
    fun _ => rfl⟩

/-- Halting keeps everything but the status. -/
theorem halt_frame (s : State) :
    SameRegs s (halt s) ∧ SameStack s (halt s) ∧ SameRecord s (halt s) ∧ SameMemory s (halt s) :=
  ⟨halt_readReg s, ⟨halt_sp s, fun _ => rfl⟩, ⟨halt_faultCause s, halt_faultValue s⟩, fun _ => rfl⟩

theorem step_halt_ne_next (s u : State) : step (halt s) ≠ .next u := fun h => by
  have hrun : (halt s).status = .running := (step_cases h).1
  simp at hrun

/-- Settles O26: HALT sets the status alone, after the advance of the fetch when it is run by a step. -/
theorem haltEndsTheRun : Obligations.HaltEndsTheRun := by
  refine ⟨decodeWord_eq_halt_iff, fun s => ?_, fun s hrun hop => ?_⟩
  · obtain ⟨hregs, hstack, hrecord, hmem⟩ := halt_frame s
    exact ⟨halt s, rfl, rfl, rfl, hregs, hstack, hrecord, hmem, step_halt_ne_next s⟩
  · -- `bumpPc` moves `pc` alone, so the frame of `halt` around the advanced state is one around `s`.
    exact ⟨halt s.bumpPc, step_of_fetch_encode (i := .halt) hrun hop, rfl, (bumpPc_pc_toNat_of_fetch hop).1,
      halt_frame s.bumpPc⟩

/-- Settles O27: CLEAR answers the state it was given, so its step is the advance of the fetch alone. -/
theorem clearDoesNothing : Obligations.ClearDoesNothing := by
  refine ⟨fun op => decodeWord_eq_ok_iff op .clear, fun s => ?_, fun s hrun hop => ?_⟩
  · exact ⟨s, rfl, rfl, fun _ => rfl, ⟨rfl, fun _ => rfl⟩, rfl, ⟨rfl, rfl⟩, fun _ => rfl⟩
  · exact ⟨s.bumpPc, step_of_fetch_encode (i := .clear) hrun hop, hrun, (bumpPc_pc_toNat_of_fetch hop).1,
      bumpPc_frame s⟩

end Sys2Proof.Machine
end

section
/-! ControlFlow: RETURN, JUMP, CALL and the stack controller, the instructions of 42_control_flow.md. -/

namespace Sys2Proof.Machine

/-! ## Encoding -/

/-- A word of format A is its class under the mask of the opcode table and its address field. -/
theorem eq_formatA_iff (c : BitVec 4) (op : Opcode) (a : Target) :
    op = formatA c a ↔ op &&& 0xF000#16 = formatA c 0#12 ∧ a = fieldAddr op := by
  rw [and_F000_eq_iff, formatA_toNat]
  constructor
  · rintro rfl
    have := a.isLt
    refine ⟨?_, (fieldAddr_formatA c a).symm⟩
    rw [formatA_toNat, BitVec.toNat_ofNat]
    omega
  · rintro ⟨hc, rfl⟩
    rw [BitVec.toNat_ofNat] at hc
    exact (formatA_fieldAddr (by omega)).symm

/-! ## The stack's entries -/

/-- Setting the entry at `k` writes it and leaves the others. -/
theorem stack_set_entries {n : Nat} {k : Fin 16} (hn : n = k.val) (stack : Vector Addr 16) (v : Addr) (h : n < 16) :
    (stack.set n v h)[k] = v ∧ ∀ j : Fin 16, j ≠ k → (stack.set n v h)[j] = stack[j] := by
  subst hn
  exact ⟨Vector.getElem_set_self h, fun j hj => Vector.getElem_set_ne h j.isLt fun hkj => hj (Fin.ext hkj.symm)⟩

/-- The entry below `sp`, by its index. -/
theorem stack_top {n : Nat} {k : Fin 16} (hn : n = k.val + 1) (stack : Vector Addr 16) (h : n - 1 < 16) :
    stack[n - 1]'h = stack[k] := by
  subst hn
  rfl

/-! ## push and pop (R114) -/

theorem push_of_lt {s : State} (hlt : s.sp.val < 16) (v : Addr) :
    push v s = .ok { s with stack := s.stack.set s.sp.val v hlt, sp := ⟨s.sp.val + 1, by omega⟩ } :=
  dif_pos hlt

theorem push_of_full {s : State} (h16 : s.sp.val = 16) (v : Addr) : push v s = .error .stackOverflow :=
  dif_neg (by omega)

theorem pop_of_pos {s : State} (hpos : 0 < s.sp.val) :
    pop s = .ok (s.stack[s.sp.val - 1]'(by omega), { s with sp := ⟨s.sp.val - 1, by omega⟩ }) :=
  dif_pos hpos

theorem pop_of_empty {s : State} (h0 : s.sp.val = 0) : pop s = .error .stackUnderflow :=
  dif_neg (by omega)

/-- A pop gives the pushed value back and undoes the move of `sp`. -/
theorem pop_of_push {v : Addr} {s t : State} (h : push v s = .ok t) : pop t = .ok (v, { t with sp := s.sp }) := by
  obtain ⟨hlt, rfl⟩ := push_ok h
  rw [pop_of_pos (Nat.succ_pos _)]
  exact congrArg (fun a => Except.ok (a, _)) (Vector.getElem_set_self hlt)

/-- Settles O31: the test picks the branch, and only `sp` and, in a push, the entry at it are written. -/
theorem pushAndPopTestBeforeTheyMove : Obligations.PushAndPopTestBeforeTheyMove := by
  refine ⟨fun v s k hk => ?_, fun v s h16 => push_of_full h16 v, fun s k hk => ?_, fun s h0 => pop_of_empty h0⟩
  · have hpush := push_of_lt (s := s) (by omega) v
    obtain ⟨hself, hother⟩ := stack_set_entries hk s.stack v (by omega)
    exact ⟨_, hpush, hself, congrArg (· + 1) hk, hother, rfl, fun _ => rfl, fun _ => rfl, pop_of_push hpush⟩
  · have hpop := pop_of_pos (s := s) (by omega)
    rw [stack_top hk] at hpop
    exact ⟨_, hpop, Nat.sub_eq_of_eq_add hk, fun _ => rfl, rfl, fun _ => rfl, fun _ => rfl⟩

/-! ## RETURN, JUMP and CALL -/

theorem exec_ret_of_pos {s : State} (hpos : 0 < s.sp.val) :
    exec .ret s = .next { s with pc := s.stack[s.sp.val - 1]'(by omega), sp := ⟨s.sp.val - 1, by omega⟩ } := by
  rw [exec, execRet, pop_of_pos hpos]
  rfl

theorem exec_ret_of_empty {s : State} (h0 : s.sp.val = 0) : exec .ret s = .next (raise .stackUnderflow s) := by
  rw [exec, execRet, pop_of_empty h0]
  rfl

theorem exec_call_of_lt {s : State} (hlt : s.sp.val < 16) (a : Target) :
    exec (.call a) s = .next { s with
      pc := targetAddr a, stack := s.stack.set s.sp.val s.pc hlt, sp := ⟨s.sp.val + 1, by omega⟩ } := by
  rw [exec, execCall, push_of_lt hlt]
  rfl

theorem exec_call_of_full {s : State} (h16 : s.sp.val = 16) (a : Target) :
    exec (.call a) s = .next (raise .stackOverflow s) := by
  rw [exec, execCall, push_of_full h16]
  rfl

/-- Loading `pc` changes nothing else. -/
theorem setPc_frame (s : State) (a : Addr) : SameRegs s (s.setPc a) ∧ SameButRegsAndPc s (s.setPc a) :=
  ⟨setPc_readReg s a, ⟨setPc_sp s a, fun _ => rfl⟩, setPc_status s a, ⟨setPc_faultCause s a, setPc_faultValue s a⟩,
    fun _ => rfl⟩

/-- Moving `pc` and the stack leaves registers, status, record and memory. -/
theorem pc_stack_frame (s : State) (pc : Addr) (stack : Vector Addr 16) (sp : Fin 17) :
    SameRegs s { s with pc := pc, stack := stack, sp := sp } ∧
    SameStatus s { s with pc := pc, stack := stack, sp := sp } ∧
    SameRecord s { s with pc := pc, stack := stack, sp := sp } ∧
    SameMemory s { s with pc := pc, stack := stack, sp := sp } :=
  ⟨fun _ => rfl, rfl, ⟨rfl, rfl⟩, fun _ => rfl⟩

/-- Taking a fault keeps registers, stack and memory. -/
theorem raise_frame (f : Fatal) (s : State) : SameButPcAndRun s (raise f s) :=
  ⟨raise_readReg f s, ⟨raise_sp f s, fun _ => rfl⟩, fun _ => rfl⟩

/-- Settles O28: the pop loads the entry below `sp`, and an empty stack raises the underflow where it stands. -/
theorem returnPopsIntoPc : Obligations.ReturnPopsIntoPc := by
  refine ⟨fun op => decodeWord_eq_ok_iff op .ret, fun s k hk => ?_, fun s h0 => ?_⟩
  · exact ⟨_, exec_ret_of_pos (by omega), stack_top hk s.stack _, Nat.sub_eq_of_eq_add hk, fun _ => rfl,
      pc_stack_frame s _ _ _⟩
  · exact ⟨_, exec_ret_of_empty h0, rfl, rfl, rfl, raise_frame _ s⟩

/-- Settles O29: the zero-extended address is the one field written. -/
theorem jumpLoadsItsTarget : Obligations.JumpLoadsItsTarget :=
  ⟨fun op a => (decodeWord_eq_ok_iff op (.jump a)).trans (eq_formatA_iff 0x1#4 op a),
    fun a s => ⟨s.setPc (targetAddr a), rfl, targetAddr_toNat a, setPc_frame s _⟩⟩

/-- Settles O30: the push stores the advanced `pc` at `sp`, and a full stack raises the overflow where it stands. -/
theorem callPushesTheReturnAddress : Obligations.CallPushesTheReturnAddress := by
  refine ⟨fun op a => (decodeWord_eq_ok_iff op (.call a)).trans (eq_formatA_iff 0x2#4 op a), fun a s k hk => ?_,
    fun a s h16 => ?_⟩
  · have hlt : s.sp.val < 16 := by omega
    obtain ⟨hself, hother⟩ := stack_set_entries hk s.stack s.pc hlt
    exact ⟨_, exec_call_of_lt hlt a, targetAddr_toNat a, hself, congrArg (· + 1) hk, hother, pc_stack_frame s _ _ _⟩
  · exact ⟨_, exec_call_of_full h16 a, rfl, rfl, rfl, raise_frame _ s⟩

/-! ## The stack over a step (R113) -/

/-- The stack stays, or loses its top entry to a RETURN, or gets the address after a CALL on top. -/
theorem step_stack_cases {s t : State} (h : step s = .next t) :
    (t.sp = s.sp ∧ t.stack = s.stack) ∨
    (∃ op, fetch s = .ok op ∧ kindOf op = .ret ∧ t.sp.val + 1 = s.sp.val ∧ t.stack = s.stack) ∨
    (∃ (op : Opcode) (hk : s.sp.val < 16), fetch s = .ok op ∧ kindOf op = .call ∧ t.sp.val = s.sp.val + 1 ∧
      t.stack = s.stack.set s.sp.val (s.pc + 2#16) hk) := by
  obtain ⟨-, ⟨f, -, rfl⟩ | ⟨op, hop, ⟨-, rfl⟩ | ⟨i, -, hkind, he⟩⟩⟩ := step_cases h
  · exact .inl ⟨rfl, rfl⟩
  · exact .inl ⟨rfl, rfl⟩
  · rcases exec_stack_cases he with hsame | ⟨rfl, hpop⟩ | ⟨a, hk, rfl, hpush⟩
    · exact .inl hsame
    · exact .inr (.inl ⟨op, hop, hkind.symm, hpop⟩)
    · exact .inr (.inr ⟨op, hk, hop, hkind.symm, hpush⟩)

/-- Settles O25: of the three cases only the pop and the push move `sp`, and only the push writes an entry. -/
theorem stackChangesOnlyByCallAndReturn : Obligations.StackChangesOnlyByCallAndReturn := by
  intro s t h
  rcases step_stack_cases h with ⟨hsp, hst⟩ | ⟨op, hop, hk, hsp, hst⟩ | ⟨op, hlt, hop, hk, hsp, hst⟩
  · exact ⟨fun hne => absurd hsp hne, fun k hne => absurd (by rw [hst]) hne⟩
  · exact ⟨fun _ => ⟨op, hop, .inr ⟨hk, hsp⟩⟩, fun k hne => absurd (by rw [hst]) hne⟩
  · refine ⟨fun _ => ⟨op, hop, .inl ⟨hk, hsp⟩⟩, fun k hne => ?_⟩
    obtain ⟨hself, hother⟩ := stack_set_entries (k := ⟨s.sp.val, hlt⟩) rfl s.stack (s.pc + 2#16) hlt
    rw [hst] at hne ⊢
    have hks : k = ⟨s.sp.val, hlt⟩ := by_contra fun hks => hne (hother k hks)
    subst hks
    exact ⟨op, hop, hk, rfl, by rw [hself]; exact (bumpPc_pc_toNat_of_fetch hop).1⟩

/-- No step changes a live entry. -/
theorem step_live_entry {s t : State} (h : step s = .next t) {j : Fin 16} (hj : j.val < s.sp.val) :
    t.stack[j] = s.stack[j] := by
  by_contra hne
  obtain ⟨-, -, -, htop, -⟩ := (stackChangesOnlyByCallAndReturn s t h).2 j hne
  omega

/-! ## Calls over a run (R115) -/

/-- The entries up to `k` stay as long as `sp` stays above `k`. -/
theorem runLoop_live_entry {k j : Fin 16} (hj : j.val ≤ k.val) {n : Nat} {s : State}
    (habove : ∀ m ≤ n, k.val < (runLoop m s).sp.val) : (runLoop n s).stack[j] = s.stack[j] := by
  induction n generalizing s with
  | zero => rfl
  | succ n ih =>
    by_cases hrun : s.status = .running
    · obtain ⟨t, ht⟩ := (stepExistsExactlyWhileRunning s).1.2 hrun
      have hrest : (runLoop n t).stack[j] = t.stack[j] := ih fun m hm => by
        rw [← runLoop_succ_of_step ht]
        exact habove (m + 1) (by omega)
      have hnow : k.val < s.sp.val := habove 0 (by omega)
      rw [runLoop_succ_of_step ht, hrest, step_live_entry ht (by omega)]
    · rw [runLoop_of_not_running hrun]

/-- The step of a CALL puts the address after it in the entry at `sp` and keeps the entries below. -/
theorem step_call_entries {s t : State} {op : Opcode} {k : Fin 16} (hop : fetch s = .ok op) (hkind : kindOf op = .call)
    (hk : s.sp.val = k.val) (h : step s = .next t) :
    (t.stack[k]).toNat = s.pc.toNat + 2 ∧ ∀ j : Fin 16, j.val < k.val → t.stack[j] = s.stack[j] := by
  have hi : decodeWord op = .ok (.call (fieldAddr op)) := by rw [decodeWord, hkind]
  obtain ⟨u, hu, -, hself, -⟩ := callPushesTheReturnAddress.2.1 (fieldAddr op) s.bumpPc k hk
  obtain rfl := Host.Outcome.next.inj (h.symm.trans ((step_of_decoded (step_cases h).1 hop hi).trans hu))
  exact ⟨by rw [hself]; exact (bumpPc_pc_toNat_of_fetch hop).1, fun j hj => step_live_entry h (by omega)⟩

/-- The step of a RETURN loads `pc` with the entry below `sp` and keeps every entry. -/
theorem step_ret_pops {s t : State} {op : Opcode} {k : Fin 16} (hop : fetch s = .ok op) (hkind : kindOf op = .ret)
    (hk : s.sp.val = k.val + 1) (h : step s = .next t) :
    t.pc = s.stack[k] ∧ t.sp.val = k.val ∧ ∀ j : Fin 16, t.stack[j] = s.stack[j] := by
  have hi : decodeWord op = .ok .ret := by rw [decodeWord, hkind]
  obtain ⟨u, hu, hpc, hsp, hst, -⟩ := returnPopsIntoPc.2.1 s.bumpPc k hk
  obtain rfl := Host.Outcome.next.inj (h.symm.trans ((step_of_decoded (step_cases h).1 hop hi).trans hu))
  exact ⟨hpc, hsp, hst⟩

/-- Settles O42: the CALL writes entry `k`, the steps between keep it live and so unchanged, and the RETURN loads it. -/
theorem returnGoesBackToTheMatchingCall : Obligations.ReturnGoesBackToTheMatchingCall := by
  rintro n s0 s1 sn t op op' k - hop hcall hk hstep habove rfl - hk' hop' hret hstep'
  obtain ⟨hpushed, hbelow⟩ := step_call_entries hop hcall hk hstep
  obtain ⟨hpc, hsp, hst⟩ := step_ret_pops hop' hret hk' hstep'
  have hkept : ∀ j : Fin 16, j.val ≤ k.val → t.stack[j] = s1.stack[j] := fun j hj =>
    (hst j).trans (runLoop_live_entry hj habove)
  refine ⟨?_, Fin.ext (hsp.trans hk.symm), fun j hj => (hkept j hj.le).trans (hbelow j hj), ?_⟩
  · rw [hpc, ← hst k, hkept k le_rfl, hpushed]
  · rw [hkept k le_rfl, hpushed]

end Sys2Proof.Machine
end

section
/-! Skip: SKIP_EQ_IMM, SKIP_NEQ_IMM and SKIP_EQ_REG, the instructions of 43_skip.md. -/

namespace Sys2Proof.Machine

/-! ## Encoding -/

/-- A word of format XK is its class under the mask of the opcode table and its two fields. -/
theorem eq_formatXK_iff (c : BitVec 4) (op : Opcode) (x : RegIx) (kk : Byte) :
    op = formatXK c x kk ↔ op &&& 0xF000#16 = formatXK c 0#4 0#8 ∧ x = fieldX op ∧ kk = fieldKK op := by
  rw [and_F000_eq_iff, formatXK_toNat]
  constructor
  · rintro rfl
    have := x.isLt
    have := kk.isLt
    refine ⟨?_, (fieldX_formatXK c x kk).symm, (fieldKK_formatXK c x kk).symm⟩
    simp only [formatXK_toNat, BitVec.toNat_ofNat]
    omega
  · rintro ⟨hc, rfl, rfl⟩
    simp only [BitVec.toNat_ofNat] at hc
    exact (formatXK_fields (by omega)).symm

/-- A word of format XY is its class and sub-opcode under the mask of the opcode table and its two fields. -/
theorem eq_formatXY_iff (c d : BitVec 4) (op : Opcode) (x y : RegIx) :
    op = formatXY c x y d ↔ op &&& 0xF00F#16 = formatXY c 0#4 0#4 d ∧ x = fieldX op ∧ y = fieldY op := by
  have := d.isLt
  rw [and_F00F_eq_iff, formatXY_toNat]
  constructor
  · rintro rfl
    have := x.isLt
    have := y.isLt
    refine ⟨?_, (fieldX_formatXY c x y d).symm, (fieldY_formatXY c x y d).symm⟩
    simp only [formatXY_toNat, BitVec.toNat_ofNat]
    omega
  · rintro ⟨hc, rfl, rfl⟩
    simp only [BitVec.toNat_ofNat] at hc
    exact (formatXY_fields (by omega)).symm

/-! ## What a skip does (R123) -/

theorem skipIf_pc_of_true {c : Bool} (hc : c = true) (s : State) : (skipIf c s).pc = s.pc + 2#16 := by
  subst hc
  rfl

theorem skipIf_pc_of_false {c : Bool} (hc : c = false) (s : State) : (skipIf c s).pc = s.pc := by
  subst hc
  rfl

/-- A skip, taken or not, changes nothing but `pc`. -/
theorem skipIf_frame (c : Bool) (s : State) : SameRegs s (skipIf c s) ∧ SameButRegsAndPc s (skipIf c s) := by
  cases c
  · exact setPc_frame s s.pc
  · exact bumpPc_frame s

/-- A skip does not look at memory. -/
theorem skipIf_with_mem (c : Bool) (s : State) (m : Memory) :
    skipIf c { s with mem := m } = { skipIf c s with mem := m } := by
  cases c <;> rfl

/-- A skip instruction decides by the registers alone: one decision serves whatever memory holds. -/
theorem exec_skip {i : Instr} (hk : i.kind ∈ [Kind.skipEqImm, .skipNeqImm, .skipEqReg]) (s : State) :
    ∃ c, ∀ m, exec i { s with mem := m } = .next (skipIf c { s with mem := m }) := by
  cases i
  case skipEqImm x kk => exact ⟨s.readReg x == kk, fun _ => rfl⟩
  case skipNeqImm x kk => exact ⟨s.readReg x != kk, fun _ => rfl⟩
  case skipEqReg x y => exact ⟨s.readReg x == s.readReg y, fun _ => rfl⟩
  all_goals simp [Instr.kind] at hk

/-- A fetch sees two bytes of memory and no others. -/
theorem fetch_with_mem_of_same_bytes {s : State} {op : Opcode} {m : Memory} (hop : fetch s = .ok op)
    (h0 : m.readByte s.pc.toNat = s.mem.readByte s.pc.toNat)
    (h1 : m.readByte (s.pc.toNat + 1) = s.mem.readByte (s.pc.toNat + 1)) :
    fetch { s with mem := m } = .ok op := by
  obtain ⟨hle, rfl⟩ := fetch_ok hop
  rw [← h0, ← h1]
  exact fetch_of_le hle

/-! ## The obligations -/

/-- Settles O32: the comparison is the decision of the skip. -/
theorem skipEqImmSkipsIffEqual : Obligations.SkipEqImmSkipsIffEqual :=
  ⟨fun op x kk => (decodeWord_eq_ok_iff op (.skipEqImm x kk)).trans (eq_formatXK_iff 0x3#4 op x kk),
    fun _ _ s => ⟨_, rfl, fun heq => skipIf_pc_of_true (beq_iff_eq.2 heq) s,
      fun hne => skipIf_pc_of_false (beq_eq_false_iff_ne.2 hne) s, skipIf_frame _ s⟩⟩

/-- Settles O33: as SKIP_EQ_IMM with the comparison negated, so the two decide the other way from each other. -/
theorem skipNeqImmSkipsIffDifferent : Obligations.SkipNeqImmSkipsIffDifferent := by
  refine ⟨fun op x kk => (decodeWord_eq_ok_iff op (.skipNeqImm x kk)).trans (eq_formatXK_iff 0x4#4 op x kk),
    fun x kk s => ⟨_, rfl, fun hne => skipIf_pc_of_true (bne_iff_ne.2 hne) s,
      fun heq => skipIf_pc_of_false (bne_eq_false_iff_eq.2 heq) s, skipIf_frame _ s⟩, fun x kk s t u ht hu => ?_⟩
  obtain rfl := Host.Outcome.next.inj ht
  obtain rfl := Host.Outcome.next.inj hu
  by_cases heq : s.readReg x = kk
  · exact .inl ⟨skipIf_pc_of_true (beq_iff_eq.2 heq) s, skipIf_pc_of_false (bne_eq_false_iff_eq.2 heq) s⟩
  · exact .inr ⟨skipIf_pc_of_false (beq_eq_false_iff_ne.2 heq) s, skipIf_pc_of_true (bne_iff_ne.2 heq) s⟩

/-- Settles O34: as SKIP_EQ_IMM with a register for the immediate, and a register equals itself. -/
theorem skipEqRegSkipsIffEqual : Obligations.SkipEqRegSkipsIffEqual :=
  ⟨fun op x y => (decodeWord_eq_ok_iff op (.skipEqReg x y)).trans (eq_formatXY_iff 0x5#4 0x0#4 op x y),
    fun _ _ s => ⟨_, rfl, fun heq => skipIf_pc_of_true (beq_iff_eq.2 heq) s,
      fun hne => skipIf_pc_of_false (beq_eq_false_iff_ne.2 hne) s, skipIf_frame _ s⟩,
    fun _ s => ⟨_, rfl, skipIf_pc_of_true (beq_iff_eq.2 rfl) s⟩⟩

/-- Settles O35: with either memory the same word is fetched and the registers make the same decision. -/
theorem skippedBytesPlayNoPart : Obligations.SkippedBytesPlayNoPart := by
  intro s op m' hrun hop hk h0 h1
  obtain ⟨i, hi⟩ := decodeWord_ok_of_kind (op := op) fun hu => by simp [hu] at hk
  rw [← kind_of_decodeWord hi] at hk
  obtain ⟨c, hexec⟩ := exec_skip hk s.bumpPc
  obtain ⟨hbump, hle⟩ := bumpPc_pc_toNat_of_fetch hop
  obtain ⟨hregs, hstack, hstatus, hrest⟩ := skipIf_frame c s.bumpPc
  refine ⟨skipIf c s.bumpPc, (step_of_decoded hrun hop hi).trans (hexec s.mem), hstatus.trans hrun, ?_, hregs,
    ⟨hstack, hstatus, hrest⟩, ?_⟩
  · rw [skipIf_pc_toNat c (by omega), hbump]
    cases c
    · exact .inl rfl
    · exact .inr rfl
  · rw [← skipIf_with_mem]
    exact (step_of_decoded (s := { s with mem := m' }) hrun (fetch_with_mem_of_same_bytes hop h0 h1) hi).trans
      (hexec m')

end Sys2Proof.Machine
end

section
/-! Alu: LOAD_IMM, ADD_IMM, LOAD_REG, OR, AND, XOR and ADD_REG, the instructions of 44_alu.md. -/

namespace Sys2Proof.Machine

/-! ## What a register write leaves unchanged -/

/-- Writing a register changes no other register and nothing but the registers. -/
theorem writeReg_frame (s : State) (x : RegIx) (v : Byte) :
    SameRegsBut [x] s (s.writeReg x v) ∧ (s.writeReg x v).pc = s.pc ∧ SameButRegsAndPc s (s.writeReg x v) :=
  ⟨fun _ hr => readReg_writeReg_of_ne s v (List.ne_of_not_mem_cons hr), writeReg_pc s x v,
    ⟨writeReg_sp s x v, fun _ => rfl⟩, writeReg_status s x v, ⟨writeReg_faultCause s x v, writeReg_faultValue s x v⟩,
    fun _ => rfl⟩

/-! ## The plain destinations (R130 to R135) -/

/-- Settles O36: the instruction is one register write, of its immediate. -/
theorem loadImmLoadsItsImmediate : Obligations.LoadImmLoadsItsImmediate :=
  ⟨fun op x kk => (decodeWord_eq_ok_iff op (.loadImm x kk)).trans (eq_formatXK_iff 0x6#4 op x kk),
    fun x kk s => ⟨_, rfl, readReg_writeReg_self s x kk, writeReg_frame s x kk⟩⟩

/-- Settles O37: the instruction is one register write, of the adder's low 8 bits. -/
theorem addImmAddsModulo256WithoutFlag : Obligations.AddImmAddsModulo256WithoutFlag := by
  refine ⟨fun op x kk => (decodeWord_eq_ok_iff op (.addImm x kk)).trans (eq_formatXK_iff 0x7#4 op x kk),
    fun x kk s => ⟨_, rfl, ?_, writeReg_frame s x _⟩⟩
  rw [readReg_writeReg_self, sumLow_toNat]

/-- Settles O38: the instruction is one register write, of the source register. -/
theorem loadRegCopiesTheSource : Obligations.LoadRegCopiesTheSource :=
  ⟨fun op x y => (decodeWord_eq_ok_iff op (.loadReg x y)).trans (eq_formatXY_iff 0x8#4 0x0#4 op x y),
    fun x y s => ⟨_, rfl, readReg_writeReg_self s x (s.readReg y), writeReg_frame s x _⟩⟩

/-- Settles O39: each of the three is one register write, of a bitwise operation of the two old values. -/
theorem logicInstructionsActBitByBitWithoutFlag : Obligations.LogicInstructionsActBitByBitWithoutFlag := by
  refine ⟨fun op x y =>
      ⟨(decodeWord_eq_ok_iff op (.orReg x y)).trans (eq_formatXY_iff 0x8#4 0x1#4 op x y),
        (decodeWord_eq_ok_iff op (.andReg x y)).trans (eq_formatXY_iff 0x8#4 0x2#4 op x y),
        (decodeWord_eq_ok_iff op (.xorReg x y)).trans (eq_formatXY_iff 0x8#4 0x3#4 op x y)⟩,
    fun x y s => ⟨_, rfl, fun n => ?_, writeReg_frame s x _⟩,
    fun x y s => ⟨_, rfl, fun n => ?_, writeReg_frame s x _⟩,
    fun x y s => ⟨_, rfl, fun n => ?_, writeReg_frame s x _⟩⟩
  · rw [readReg_writeReg_self, BitVec.getLsbD_or]
  · rw [readReg_writeReg_self, BitVec.getLsbD_and]
  · rw [readReg_writeReg_self, BitVec.getLsbD_xor, Bool.bne_eq_xor]

/-! ## ADD_REG and the flag (R136 to R139) -/

/-- What the flag register gets is the carry of the exact sum, 0 or 1 (R137). -/
theorem flagByte_sumCarry (a b : Byte) :
    flagByte (sumCarry a b) = if 255 < a.toNat + b.toNat then 0x01#8 else 0x00#8 := by
  simp only [flagByte, sumCarry_iff]

theorem flagByte_eq_zero_or_one (b : Bool) : flagByte b = 0x00#8 ∨ flagByte b = 0x01#8 := by
  cases b
  · exact .inl rfl
  · exact .inr rfl

theorem readReg_flag_writeFlag (s : State) (b : Bool) : (s.writeFlag b).readReg 0xF#4 = flagByte b :=
  readReg_writeReg_self s 0xF#4 (flagByte b)

/-- Settles O40: the sum is read back past the flag write unless both go to register 15, where the carry, written last,
is what is read (R138). -/
theorem addRegStoresTheSumAndThenTheCarry : Obligations.AddRegStoresTheSumAndThenTheCarry := by
  refine ⟨fun op x y => (decodeWord_eq_ok_iff op (.addReg x y)).trans (eq_formatXY_iff 0x8#4 0x4#4 op x y),
    fun x y s => ⟨_, rfl, fun hx => ?_, fun hgt => ?_, fun hle => ?_, fun r hr => ?_, rfl, ?_⟩⟩
  · rw [readReg_writeFlag, if_neg hx, readReg_writeReg_self, sumLow_toNat]
  · rw [readReg_flag_writeFlag, flagByte_sumCarry, if_pos hgt]
  · rw [readReg_flag_writeFlag, flagByte_sumCarry, if_neg (Nat.not_lt.2 hle)]
  · exact exec_readReg_of_not_written (i := .addReg x y) rfl hr
  · -- No register is named here, so the frame of the second write is one around `s`.
    exact (writeReg_frame (s.writeReg x (sumLow (s.readReg x) (s.readReg y))) 0xF#4 _).2.2

/-- An instruction that writes register 15 is ADD_REG, or has it as its plain destination. -/
theorem addReg_or_destination_of_flagReg_mem_regsWritten {i : Instr} (h : 0xF#4 ∈ regsWritten i) :
    (∃ x y, i = .addReg x y) ∨
    (fieldX (encode i) = 0xF#4 ∧ i.kind ∈ [Kind.loadImm, .addImm, .loadReg, .orReg, .andReg, .xorReg]) := by
  cases i with
  | halt | clear | ret | jump a | call a | skipEqImm x kk | skipNeqImm x kk | skipEqReg x y =>
    exact absurd h List.not_mem_nil
  | loadImm x kk | addImm x kk =>
    obtain rfl := List.mem_singleton.1 h
    exact .inr ⟨fieldX_formatXK _ _ kk, by simp [Instr.kind]⟩
  | loadReg x y | orReg x y | andReg x y | xorReg x y =>
    obtain rfl := List.mem_singleton.1 h
    exact .inr ⟨fieldX_formatXY _ _ y _, by simp [Instr.kind]⟩
  | addReg x y => exact .inl ⟨x, y, rfl⟩

/-- Settles O24: a step changes only registers its instruction writes, and ADD_REG leaves its carry in register 15. -/
theorem flagRegisterChangesOnlyByAddRegOrAsDestination :
    Obligations.FlagRegisterChangesOnlyByAddRegOrAsDestination := by
  intro s t h hne
  obtain ⟨op, i, hop, hi, hw⟩ := stepWritesOnlyTheRegistersOfTheTable s t h 0xF#4 hne
  obtain rfl := (decodeWord_eq_ok_iff op i).1 hi
  refine ⟨encode i, hop, ?_⟩
  rw [kindOf_encode]
  rcases addReg_or_destination_of_flagReg_mem_regsWritten hw with ⟨x, y, rfl⟩ | hdest
  · have hexec : exec (.addReg x y) s.bumpPc = .next t := (step_of_fetch_encode (step_cases h).1 hop).symm.trans h
    obtain rfl := Host.Outcome.next.inj hexec
    exact .inl ⟨rfl, readReg_flag_writeFlag _ _ ▸ flagByte_eq_zero_or_one _⟩
  · exact .inr hdest

end Sys2Proof.Machine
end

section
/-! Exceptions: what raising a fault writes, and the state a faulting step leaves (60_exceptions.md R150, R151, R156,
R157). -/

namespace Sys2Proof.Machine

/-! ## Raising a fault (R150, R157) -/

/-- Every fault has a cause to record. -/
theorem Fatal.cause_ne_none (f : Fatal) : f.cause ≠ .none := by
  cases f <;> exact FaultCause.noConfusion

/-- Settles O19: `raise` keeps all but the run's end, and the code and value are read off the fault. -/
theorem raiseWritesOnlyStatusAndFaultRecord : Obligations.RaiseWritesOnlyStatusAndFaultRecord := by
  refine fun f s => ⟨raise_status f s, raise_pc f s, raise_frame f s, ?_, ?_, ?_, ?_⟩
  · rintro op rfl
    exact ⟨rfl, rfl⟩
  · rintro rfl
    exact ⟨rfl, rfl⟩
  · rintro rfl
    exact ⟨rfl, rfl⟩
  · rintro a rfl
    exact ⟨rfl, rfl⟩

/-- A fault taken after the advance keeps what one taken before it keeps. -/
theorem raise_bumpPc_frame (f : Fatal) (s : State) : SameButPcAndRun s (raise f s.bumpPc) :=
  raise_frame f s.bumpPc

/-! ## A faulting step (R151, R156) -/

/-- Settles O15: the step is the fault raised in the advanced state. -/
theorem unsupportedWordFaultsAfterTheAdvance : Obligations.UnsupportedWordFaultsAfterTheAdvance :=
  fun s op hrun hop hk => ⟨raise (.unsupportedOpcode op) s.bumpPc, step_of_unsupported hrun hop hk, rfl, rfl, rfl,
    (bumpPc_pc_toNat_of_fetch hop).1, raise_bumpPc_frame _ s⟩

/-- The two places a fault is taken at: a failed fetch raises MemoryOutOfBounds in the state it was made in, and what
follows a fetch raises one of the other three in the advanced state. -/
theorem step_faulted_cases {s t : State} (h : step s = .next t) (hst : t.status = .faulted) :
    (∃ a, t = raise (.memoryOutOfBounds a) s) ∨
    ∃ f op, fetch s = .ok op ∧ f.cause ≠ .memoryOutOfBounds ∧ t = raise f s.bumpPc := by
  obtain ⟨hrun, ⟨f, hf, rfl⟩ | ⟨op, hop, ⟨-, rfl⟩ | ⟨i, -, -, he⟩⟩⟩ := step_cases h
  · exact .inl ⟨_, by rw [(fetch_error hf).2]⟩
  · exact .inr ⟨.unsupportedOpcode op, op, hop, FaultCause.noConfusion, rfl⟩
  · rcases exec_run_cases he with ⟨hst' | hst', -⟩ | ⟨-, -, rfl⟩ | ⟨-, -, rfl⟩
    · simp [hst', hrun] at hst
    · simp [hst'] at hst
    · exact .inr ⟨.stackUnderflow, op, hop, FaultCause.noConfusion, rfl⟩
    · exact .inr ⟨.stackOverflow, op, hop, FaultCause.noConfusion, rfl⟩

/-- Settles O18: `pc` stands where the fault was taken, and the cause tells the two places apart. -/
theorem faultingStepIsPrecise : Obligations.FaultingStepIsPrecise := by
  intro s t h hst
  rcases step_faulted_cases h hst with ⟨a, rfl⟩ | ⟨f, op, hop, hf, rfl⟩
  · exact ⟨raise_frame _ s, Fatal.cause_ne_none (.memoryOutOfBounds a), fun _ => rfl, fun hne => absurd rfl hne⟩
  · exact ⟨raise_bumpPc_frame f s, Fatal.cause_ne_none f, fun hc => absurd hc hf,
      fun _ => (bumpPc_pc_toNat_of_fetch hop).1⟩

end Sys2Proof.Machine
end

section
/-! HostPort: when the host port performs an operation, what each does, and what all of them keep
(70_reset_and_hazards.md R180 to R183, R192). -/

namespace Sys2Proof.Machine

/-! ## When an operation is performed (R181, R192) -/

theorem hostStep_of_allowed {o : HostOp} {s : State} (h : o.allowed s = true) : hostStep o s = o.perform s :=
  if_pos h

/-- Everything an attempted operation can do: nothing, or what its name says where R181 allows it. -/
theorem hostStep_cases (o : HostOp) (s : State) :
    hostStep o s = s ∨
    (o = .reset ∧ s.status ≠ .running ∧ hostStep o s = resetKeepingMemory s) ∨
    (s.status = .idle ∧
      ((∃ a v, o = .loadMem a v ∧ a < Config.memSize ∧ hostStep o s = { s with mem := s.mem.writeByte a v }) ∨
       (∃ i v, o = .setReg i v ∧ hostStep o s = s.writeReg i v) ∨
       (∃ e, o = .setPC e ∧ hostStep o s = s.setPc e) ∨
       (o = .run ∧ hostStep o s = { s with status := .running }))) := by
  by_cases h : o.allowed s = true
  · have hperform := hostStep_of_allowed h
    cases o with
    | reset => exact .inr (.inl ⟨rfl, bne_iff_ne.1 h, hperform⟩)
    | loadMem a v =>
      obtain ⟨hidle, ha⟩ := Bool.and_eq_true_iff.1 h
      exact .inr (.inr ⟨eq_of_beq hidle, .inl ⟨a, v, rfl, of_decide_eq_true ha, hperform⟩⟩)
    | setReg i v => exact .inr (.inr ⟨eq_of_beq h, .inr (.inl ⟨i, v, rfl, hperform⟩)⟩)
    | setPC e => exact .inr (.inr ⟨eq_of_beq h, .inr (.inr (.inl ⟨e, rfl, hperform⟩))⟩)
    | run => exact .inr (.inr ⟨eq_of_beq h, .inr (.inr (.inr ⟨rfl, hperform⟩))⟩)
  · exact .inl (if_neg h)

theorem hostStep_loadMem {s : State} (h : s.status = .idle) {a : Nat} (ha : a < Config.memSize) (v : Byte) :
    hostStep (.loadMem a v) s = { s with mem := s.mem.writeByte a v } :=
  hostStep_of_allowed (Bool.and_eq_true_iff.2 ⟨beq_iff_eq.2 h, decide_eq_true ha⟩)

theorem hostStep_setReg {s : State} (h : s.status = .idle) (i : RegIx) (v : Byte) :
    hostStep (.setReg i v) s = s.writeReg i v :=
  hostStep_of_allowed (beq_iff_eq.2 h)

theorem hostStep_setPC {s : State} (h : s.status = .idle) (e : Addr) : hostStep (.setPC e) s = s.setPc e :=
  hostStep_of_allowed (beq_iff_eq.2 h)

theorem hostStep_run {s : State} (h : s.status = .idle) : hostStep .run s = { s with status := .running } :=
  hostStep_of_allowed (beq_iff_eq.2 h)

theorem hostStep_reset {s : State} (h : s.status ≠ .running) : hostStep .reset s = resetKeepingMemory s :=
  hostStep_of_allowed (bne_iff_ne.2 h)

/-- A LoadMem above memory is refused in every state (D16). -/
theorem hostStep_loadMem_outside {a : Nat} (ha : ¬ a < Config.memSize) (v : Byte) (s : State) :
    hostStep (.loadMem a v) s = s :=
  if_neg fun h => ha (of_decide_eq_true (Bool.and_eq_true_iff.1 h).2)

/-- Settles O48: the port performs nothing in Running and only Reset in an ended state, and no LoadMem above memory. -/
theorem refusedHostOperationsChangeNothing : Obligations.RefusedHostOperationsChangeNothing := by
  refine ⟨fun o s hrun => ?_, fun o s hended hne => ?_, fun a v s ha => hostStep_loadMem_outside (Nat.not_lt.2 ha) v s⟩
  · rcases hostStep_cases o s with hsame | ⟨-, hnot, -⟩ | ⟨hidle, -⟩
    · exact hsame
    · exact absurd hrun hnot
    · simp [hrun] at hidle
  · rcases hostStep_cases o s with hsame | ⟨hreset, -⟩ | ⟨hidle, -⟩
    · exact hsame
    · exact absurd hreset hne
    · simp [hidle] at hended

/-! ## What a performed operation does (R180, R182) -/

theorem resetKeepingMemory_readReg (s : State) (r : RegIx) : (resetKeepingMemory s).readReg r = 0x00#8 :=
  Vector.getElem_replicate r.isLt

theorem resetKeepingMemory_stack (s : State) (k : Fin 16) : (resetKeepingMemory s).stack[k] = 0x0000#16 :=
  Vector.getElem_replicate k.isLt

/-- Settles O47: the reset state with the memory of the state before. -/
theorem resetSetsEverythingButMemory : Obligations.ResetSetsEverythingButMemory := by
  intro s hrun
  rw [hostStep_reset hrun]
  exact ⟨rfl, rfl, resetKeepingMemory_readReg s, resetKeepingMemory_stack s, rfl, rfl, rfl, fun _ => rfl⟩

/-- Settles O49: each operation is performed in Idle as one update of one field. -/
theorem hostWritesChangeWhatTheyNameOnly : Obligations.HostWritesChangeWhatTheyNameOnly := by
  refine fun s hidle hwf => ⟨fun a v ha => ?_, fun i v => ?_, hostStep_setPC hidle, hostStep_run hidle⟩
  · rw [hostStep_loadMem hidle (Nat.lt_succ_of_le ha)]
    exact ⟨(readByte_writeByte hwf a v a).trans (if_pos rfl),
      fun b hb => (readByte_writeByte hwf a v b).trans (if_neg hb), rfl⟩
  · rw [hostStep_setReg hidle]
    exact ⟨readReg_writeReg_self s i v, writeReg_frame s i v⟩

/-! ## The invariant (10_state.md R30) -/

/-- Settles O46: LoadMem keeps memory canonical, Reset clears all the rest, and Run is performed in Idle, where the
record is clear. -/
theorem everyHostOperationKeepsTheInvariant : Obligations.EveryHostOperationKeepsTheInvariant := by
  rintro o s ⟨hmem, hlive, hrec, hfresh⟩
  rcases hostStep_cases o s with h | ⟨-, -, h⟩ |
    ⟨hidle, ⟨a, v, -, ha, h⟩ | ⟨i, v, -, h⟩ | ⟨e, -, h⟩ | ⟨-, h⟩⟩ <;> rw [h]
  · exact ⟨hmem, hlive, hrec, hfresh⟩
  · obtain ⟨-, hlive', hrec', hfresh'⟩ := resetSatisfiesTheInvariant.1
    exact ⟨hmem, hlive', hrec', hfresh'⟩
  · exact ⟨wf_writeByte hmem v ha, hlive, hrec, hfresh⟩
  · exact ⟨hmem, hlive, hrec, hfresh⟩
  · exact ⟨hmem, hlive, hrec, hfresh⟩
  · have hclear := (recordConsistent_iff_of_not_faulted (by simp [hidle])).1 hrec
    exact ⟨hmem, hlive, (recordConsistent_iff_of_not_faulted Status.noConfusion).2 hclear, Status.noConfusion⟩

/-! ## Sequences of operations (R183) -/

theorem hostSteps_cons (o : HostOp) (os : List HostOp) (s : State) :
    hostSteps (o :: os) s = hostSteps os (hostStep o s) := rfl

theorem hostSteps_append (os os' : List HostOp) (s : State) :
    hostSteps (os ++ os') s = hostSteps os' (hostSteps os s) := List.foldl_append

/-- What each operation of a list keeps, the list keeps. -/
theorem hostSteps_invariant {P : State → Prop} {os : List HostOp} (hstep : ∀ o ∈ os, ∀ s, P s → P (hostStep o s))
    {s : State} (hs : P s) : P (hostSteps os s) :=
  List.foldlRecOn os _ hs fun t ht o ho => hstep o ho t ht

/-- The core waits for Run with an empty stack and a clear fault record, whatever the host has written. -/
def ReadyToRun (s : State) : Prop :=
  s.status = .idle ∧ s.sp = 0 ∧ s.stack = Vector.replicate 16 0x0000#16 ∧ s.faultCause = .none ∧
    s.faultValue = 0x0000#16

theorem readyToRun_resetKeepingMemory (s : State) : ReadyToRun (resetKeepingMemory s) := ⟨rfl, rfl, rfl, rfl, rfl⟩

/-- Only Run ends the wait: no other operation reaches the status, the stack or the record but Reset, which clears
them. -/
theorem hostStep_readyToRun {o : HostOp} {s : State} (ho : o ≠ .run) (h : ReadyToRun s) :
    ReadyToRun (hostStep o s) := by
  rcases hostStep_cases o s with he | ⟨-, -, he⟩ |
    ⟨-, ⟨a, v, -, -, he⟩ | ⟨i, v, -, he⟩ | ⟨e, -, he⟩ | ⟨hrun, he⟩⟩ <;> rw [he]
  · exact h
  · exact readyToRun_resetKeepingMemory s
  · exact h
  · exact h
  · exact h
  · exact absurd hrun ho

/-- Settles O50: Reset makes the core ready, the operations between keep it so, and Run sets the status alone. -/
theorem launchStateIsFresh : Obligations.LaunchStateIsFresh := by
  intro s os hrun hos t
  have hready : ReadyToRun (hostSteps os (resetKeepingMemory s)) :=
    hostSteps_invariant (fun o ho _ => hostStep_readyToRun (hos o ho)) (readyToRun_resetKeepingMemory s)
  obtain ⟨hidle, hsp, hst, hc, hv⟩ := hready
  have ht : t = { hostSteps os (resetKeepingMemory s) with status := .running } := by
    rw [← hostStep_run hidle, ← hostStep_reset hrun]
    exact hostSteps_append (.reset :: os) [.run] s
  clear_value t
  subst ht
  refine ⟨rfl, congrArg Fin.val hsp, fun k => by simp [hst], hc, hv, ?_, refusedHostOperationsChangeNothing.1 _ _ rfl⟩
  rintro rfl
  exact ⟨rfl, resetKeepingMemory_readReg s, fun _ => rfl⟩

/-! ## The last write to a place (R182) -/

theorem lastSetReg_cons (r : RegIx) (o : HostOp) (os : List HostOp) (v : Byte) :
    lastSetReg r (o :: os) v = lastSetReg r os (lastSetReg r [o] v) := by
  cases o <;> rfl

theorem lastSetPc_cons (o : HostOp) (os : List HostOp) (p : Addr) :
    lastSetPc (o :: os) p = lastSetPc os (lastSetPc [o] p) := by
  cases o <;> rfl

theorem lastLoadMem_cons (a : Nat) (o : HostOp) (os : List HostOp) (v : Byte) :
    lastLoadMem a (o :: os) v = lastLoadMem a os (lastLoadMem a [o] v) := by
  cases o <;> rfl

/-- One write of the host in Idle: the core stays Idle with canonical memory, and each place holds what the write gave
it or what it held. -/
theorem hostStep_write {o : HostOp} {s : State} (hidle : s.status = .idle) (hwf : s.mem.wf = true) (hrun : o ≠ .run)
    (hreset : o ≠ .reset) :
    (hostStep o s).status = .idle ∧ (hostStep o s).mem.wf = true ∧
    (∀ r, (hostStep o s).readReg r = lastSetReg r [o] (s.readReg r)) ∧
    (hostStep o s).pc = lastSetPc [o] s.pc ∧
    (∀ a, (hostStep o s).mem.readByte a = lastLoadMem a [o] (s.mem.readByte a)) := by
  cases o with
  | reset => exact absurd rfl hreset
  | run => exact absurd rfl hrun
  | setReg i v =>
    rw [hostStep_setReg hidle]
    refine ⟨hidle, hwf, fun r => ?_, rfl, fun _ => rfl⟩
    simp only [readReg_writeReg, lastSetReg, eq_comm]
  | setPC e =>
    rw [hostStep_setPC hidle]
    exact ⟨hidle, hwf, fun _ => rfl, rfl, fun _ => rfl⟩
  | loadMem b v =>
    by_cases hb : b < Config.memSize
    · rw [hostStep_loadMem hidle hb]
      refine ⟨hidle, wf_writeByte hwf v hb, fun _ => rfl, rfl, fun a => ?_⟩
      simp only [readByte_writeByte hwf, lastLoadMem, hb, and_true, eq_comm]
    · rw [hostStep_loadMem_outside hb]
      refine ⟨hidle, hwf, fun _ => rfl, rfl, fun a => ?_⟩
      simp only [lastLoadMem, hb, and_false, if_false]

/-- Settles O51, by induction on the list of writes, the state general. -/
theorem lastHostWriteToAPlaceWins : Obligations.LastHostWriteToAPlaceWins := by
  intro os
  induction os with
  | nil => exact fun s hidle _ _ => ⟨hidle, fun _ => rfl, rfl, fun _ => rfl⟩
  | cons o os ih =>
    intro s hidle hwf hos
    obtain ⟨⟨hrun, hreset⟩, hrest⟩ := List.forall_mem_cons.1 hos
    obtain ⟨hidle', hwf', hreg, hpc, hbyte⟩ := hostStep_write hidle hwf hrun hreset
    obtain ⟨hst, hregs, hpcs, hbytes⟩ := ih (hostStep o s) hidle' hwf' hrest
    refine ⟨hst, fun r => ?_, ?_, fun a => ?_⟩
    · rw [hostSteps_cons, hregs, hreg, ← lastSetReg_cons]
    · rw [hostSteps_cons, hpcs, hpc, ← lastSetPc_cons]
    · rw [hostSteps_cons, hbytes, hbyte, ← lastLoadMem_cons]

end Sys2Proof.Machine
end

section
/-! Inspect: what the host reads (70_reset_and_hazards.md R185; 10_state.md R26, R38). -/

namespace Sys2Proof.Machine

/-! ## The codes (10_state.md R24 to R26) -/

theorem Status.code_injective {a b : Status} (h : a.code = b.code) : a = b := by
  cases a <;> cases b <;> revert h <;> decide

theorem FaultCause.code_injective {a b : FaultCause} (h : a.code = b.code) : a = b := by
  cases a <;> cases b <;> revert h <;> decide

theorem spBits_toNat (sp : Fin 17) : (spBits sp).toNat = sp.val := by
  have := sp.isLt
  rw [spBits, BitVec.toNat_ofNat]
  omega

theorem spBits_injective {p q : Fin 17} (h : spBits p = spBits q) : p = q :=
  Fin.ext (by rw [← spBits_toNat p, h, spBits_toNat q])

/-! ## The view -/

/-- Inspect answers outside a run alone, with every register in its width. -/
theorem inspect_eq_some_iff {s : State} {v : Inspection} :
    inspect s = some v ↔ s.status ≠ .running ∧
      { mem := s.mem, pc := s.pc, regs := s.regs, stack := s.stack, sp := spBits s.sp, status := s.status.code,
        faultCause := s.faultCause.code, faultValue := s.faultValue } = v := by
  rw [inspect, Option.ite_none_left_eq_some, Option.some_inj]

/-- Two states with the same view are the same: the codes and the bits of `sp` lose nothing. -/
theorem eq_of_inspect_eq_some {s t : State} {v : Inspection} (hs : inspect s = some v) (ht : inspect t = some v) :
    s = t := by
  obtain ⟨-, rfl⟩ := inspect_eq_some_iff.1 hs
  obtain ⟨-, hview⟩ := inspect_eq_some_iff.1 ht
  obtain ⟨hmem, hpc, hregs, hstack, hsp, hst, hc, hv⟩ := Inspection.mk.inj hview
  exact State.ext_of_reads hmem.symm hpc.symm (fun r => by rw [State.readReg, State.readReg, hregs]) hstack.symm
    (spBits_injective hsp.symm) (Status.code_injective hst.symm) (FaultCause.code_injective hc.symm) hv.symm

theorem readStatus_eq_code_iff (s : State) (st : Status) : readStatus s = st.code ↔ s.status = st :=
  ⟨Status.code_injective, congrArg Status.code⟩

/-- Settles O52: the view exists exactly outside a run, and each of its fields determines the register it shows. -/
theorem inspectShowsTheWholeStateOutsideARun : Obligations.InspectShowsTheWholeStateOutsideARun := by
  have hanswers : ∀ s : State, (∃ v, inspect s = some v) ↔ s.status ≠ .running := fun s =>
    ⟨fun ⟨_, hv⟩ => (inspect_eq_some_iff.1 hv).1, fun h => ⟨_, inspect_eq_some_iff.2 ⟨h, rfl⟩⟩⟩
  refine ⟨hanswers, fun s t hs heq => ?_, fun s v hv => ?_, fun s => ?_⟩
  · obtain ⟨v, hv⟩ := (hanswers s).2 hs
    exact eq_of_inspect_eq_some hv (heq ▸ hv)
  · obtain ⟨-, rfl⟩ := inspect_eq_some_iff.1 hv
    exact ⟨spBits_toNat s.sp, rfl, rfl, rfl⟩
  · exact ⟨readStatus_eq_code_iff s .idle, readStatus_eq_code_iff s .running, readStatus_eq_code_iff s .halted,
      readStatus_eq_code_iff s .faulted⟩

end Sys2Proof.Machine
end

section
/-! Hazards: no instruction is delayed behind the one before it (70_reset_and_hazards.md R188). -/

namespace Sys2Proof.Machine

/-- Two bytes away is another address. -/
theorem add_two_ne_self (a : Addr) : a + 2#16 ≠ a := by
  bv_omega

/-- SKIP_EQ_IMM moves `pc` exactly when the register holds the immediate. -/
theorem exec_skipEqImm_skips_iff (x : RegIx) (kk : Byte) (s : State) :
    ∃ t, exec (.skipEqImm x kk) s = .next t ∧ (t.pc = s.pc + 2#16 ↔ s.readReg x = kk) := by
  obtain ⟨t, ht, heq, hne, -⟩ := skipEqImmSkipsIffEqual.2 x kk s
  refine ⟨t, ht, fun hpc => by_contra fun h => ?_, heq⟩
  exact add_two_ne_self s.pc (hpc.symm.trans (hne h))

/-- The flag register after ADD_REG is 1 exactly when the sum exceeded a byte (44_alu.md R137). -/
theorem exec_addReg_flag_iff {x y : RegIx} {s t : State} (h : exec (.addReg x y) s = .next t) :
    t.readReg 0xF#4 = 0x01#8 ↔ 255 < (s.readReg x).toNat + (s.readReg y).toNat := by
  obtain rfl := Host.Outcome.next.inj h
  rw [readReg_flag_writeFlag, flagByte_sumCarry]
  split_ifs with hc <;> simp [hc]

/-- Settles O41: each second instruction reads the register, the flag or the entry that the first one wrote. -/
theorem nextInstructionSeesTheWrittenValue : Obligations.NextInstructionSeesTheWrittenValue := by
  refine ⟨fun x y kk s t h => ?_, fun x y s t h => ?_, fun a s t hlt h => ?_⟩
  · obtain rfl := Host.Outcome.next.inj h
    refine ⟨_, rfl, ?_, ?_⟩
    · rw [readReg_writeReg_self, readReg_writeReg_self]
    · rw [readReg_writeReg, readReg_writeReg_self, ite_self]
  · obtain ⟨u, hu, hskip⟩ := exec_skipEqImm_skips_iff 0xF#4 0x01#8 t
    exact ⟨u, hu, hskip.trans (exec_addReg_flag_iff h)⟩
  · obtain ⟨t', ht', -, hentry, hsp, -⟩ := callPushesTheReturnAddress.2.1 a s ⟨s.sp.val, hlt⟩ rfl
    obtain rfl := Host.Outcome.next.inj (h.symm.trans ht')
    obtain ⟨u, hu, hpc, husp, -⟩ := returnPopsIntoPc.2.1 t ⟨s.sp.val, hlt⟩ hsp
    exact ⟨u, hu, hpc.trans hentry, Fin.ext husp⟩

end Sys2Proof.Machine
end
